-- ==== Sys2Proof/Word.lean ====
section
/-! DEFINITION. The values every other file speaks of: bytes, 32-bit words, command words, four-byte
sequences and the numbers of the tag registers (00_scope.md R4, R8). -/

namespace Sys2Proof

/-- A byte (00_scope.md R4: byte size 8 bits). -/
abbrev Byte := BitVec 8

/-- A 32-bit word, unsigned (00_scope.md R4, R8). -/
abbrev Word := BitVec 32

/-- A 64-bit command word (00_scope.md R4, 30_encoding.md R53). -/
abbrev CmdWord := BitVec 64

/-- The number of a tag register (10_state.md R11): one of the four `T0` to `T3`. -/
inductive TagReg where
  | t0
  | t1
  | t2
  | t3
  deriving DecidableEq, Repr

/-- A sequence of exactly four bytes: the "code" of a type tag (10_state.md R11), the four raw bytes
of an immediate (30_encoding.md R55) or a four-byte field of a wire record (30_encoding.md R50).
`b0` is the byte of index 0. -/
structure Bytes4 where
  b0 : Byte
  b1 : Byte
  b2 : Byte
  b3 : Byte
  deriving DecidableEq, Repr

/-- The four bytes as a byte sequence, index 0 first (00_scope.md R8). -/
def Bytes4.toList (c : Bytes4) : List Byte := [c.b0, c.b1, c.b2, c.b3]

end Sys2Proof
end

