-- ==== Sys2Proof/Machine/Crc.lean ====
section
/-! DEFINITION. The CRC-32 unit (40_crc32.md): the function CHUNK.NEW computes and CHUNK.DECODE
recomputes. It has no state that outlives a command (10_state.md R22). -/

namespace Sys2Proof.Machine

/-- The bit-reversed generator polynomial (40_crc32.md R71). -/
def polyR : Word := 0xEDB88320#32

/-- One of the eight iterations of the byte step (40_crc32.md R72). -/
def crcShift (c : Word) : Word := if c.getLsbD 0 then (c >>> 1) ^^^ polyR else c >>> 1

/-- `k` iterations of the byte step. -/
def crcShifts : Nat → Word → Word
  | 0, c => c
  | k + 1, c => crcShifts k (crcShift c)

/-- The byte step: the byte enters at bits 7:0, then eight iterations (40_crc32.md R72). -/
def crcByte (c : Word) (b : Byte) : Word := crcShifts 8 (c ^^^ b.setWidth 32)

/-- `crcRun`: the bytes in increasing order through one register (40_crc32.md R76). -/
def crcRun (c : Word) (s : List Byte) : Word := s.foldl crcByte c

/-- `CRC32(s)`: initial value and final XOR 0xFFFFFFFF (40_crc32.md R73). -/
def crc32 (s : List Byte) : Word := crcRun 0xFFFFFFFF#32 s ^^^ 0xFFFFFFFF#32

end Sys2Proof.Machine
end

