-- ==== Sys2Proof/Config.lean ====
section
/-! DEFINITION. What one block fixes and the spec leaves open: the capacity PMAX, and the one value a
host read returns that the spec does not state. Constants without a body: no proof can see a value. -/

namespace Sys2Proof

/-- By how much PMAX exceeds its least value 54. DESIGN CHOICE (log entry 1): the open parameter PMAX
is held as its distance from the lower bound, so that both bounds of R4 hold by the type. -/
opaque Config.pmaxAbove54 : Fin 4294967242

/-- PMAX, the largest payload in bytes and the capacity of IBUF (00_scope.md R4; 92_eei_decisions.md D4:
OPEN, 54 <= PMAX <= 2^32 - 1). Log entry 1. -/
def Config.pmax : Nat := Config.pmaxAbove54.val + 54

/-- FREE VALUE (log entry 10): what an `H_READ(OLEN)` returns when OBUF holds 2^32 bytes or more, a
count that the 32 bits of the register (00_scope.md R4) cannot hold. The spec states no result there;
OBUF may be that long only where PMAX + 12 exceeds 2^32 - 1. -/
opaque Config.olenTooBig : Nat → Word

end Sys2Proof
end

