-- ==== Sys2Proof/Syntax.lean ====
section
/-! DEFINITION. The commands of "PNGME-CORE command set, version 1": one constructor per row of
spec/opcode_table.json (30_encoding.md R57). -/

namespace Sys2Proof

/-- A command with its operands (30_encoding.md R57). `td` is the destination tag register, `ta` and
`tb` the source tag registers, `imm` the 32-bit immediate; IBUF, OBUF, CK, RES and the status registers
are implicit operands (R56). -/
inductive Instr where
  /-- TAG.FROMBYTES td, imm (41_typetag.md R81) -/
  | tagFromBytes (td : TagReg) (imm : Word)
  /-- TAG.FROMTEXT td (R82) -/
  | tagFromText (td : TagReg)
  /-- TAG.ISCRITICAL ta (R84) -/
  | tagIsCritical (ta : TagReg)
  /-- TAG.ISPUBLIC ta (R85) -/
  | tagIsPublic (ta : TagReg)
  /-- TAG.ISRESVALID ta (R86) -/
  | tagIsResValid (ta : TagReg)
  /-- TAG.ISSAFE ta (R87) -/
  | tagIsSafe (ta : TagReg)
  /-- TAG.ISVALID ta (R88) -/
  | tagIsValid (ta : TagReg)
  /-- TAG.BYTES ta (R89) -/
  | tagBytes (ta : TagReg)
  /-- TAG.TEXT ta (R90) -/
  | tagText (ta : TagReg)
  /-- TAG.EQ ta, tb (R91) -/
  | tagEq (ta tb : TagReg)
  /-- CHUNK.NEW ta (42_chunk.md R100) -/
  | chunkNew (ta : TagReg)
  /-- CHUNK.DECODE (R101) -/
  | chunkDecode
  /-- CHUNK.ENCODE (R102) -/
  | chunkEncode
  /-- CHUNK.TEXT (R104) -/
  | chunkText
  /-- CHUNK.TYPE td (R106) -/
  | chunkType (td : TagReg)
  /-- CHUNK.PAYLOAD (R107) -/
  | chunkPayload
  deriving DecidableEq, Repr

end Sys2Proof
end

