-- ==== Sys2Proof/Decode.lean ====
section
/-! DEFINITION. The command decoder, total on every 64-bit word (30_encoding.md R63), and the encoder,
both written from the field table of R54 and the opcode map of R57. -/

namespace Sys2Proof

/-- The number of a tag register in a `TD`, `TA` or `TB` field (30_encoding.md R56). -/
def TagReg.num : TagReg → BitVec 2
  | .t0 => 0#2
  | .t1 => 1#2
  | .t2 => 2#2
  | .t3 => 3#2

/-- The tag register a 2-bit field selects (30_encoding.md R56: all four values are legal). -/
def TagReg.ofNum (n : BitVec 2) : TagReg :=
  if n = 0#2 then .t0 else if n = 1#2 then .t1 else if n = 2#2 then .t2 else .t3

/-- `OPC = w[63:56]` (30_encoding.md R54). -/
def CmdWord.opc (w : CmdWord) : BitVec 8 := w.extractLsb' 56 8

/-- `TD = w[55:54]` (30_encoding.md R54). -/
def CmdWord.td (w : CmdWord) : BitVec 2 := w.extractLsb' 54 2

/-- `TA = w[53:52]` (30_encoding.md R54). -/
def CmdWord.ta (w : CmdWord) : BitVec 2 := w.extractLsb' 52 2

/-- `TB = w[51:50]` (30_encoding.md R54). -/
def CmdWord.tb (w : CmdWord) : BitVec 2 := w.extractLsb' 50 2

/-- `IMM = w[31:0]` (30_encoding.md R54). -/
def CmdWord.imm (w : CmdWord) : Word := w.extractLsb' 0 32

/-- One row of the opcode map (30_encoding.md R57): the operation code, the columns "match" and "mask",
and the command the row's word stands for. -/
structure OpRow where
  mnemonic : String
  opc : BitVec 8
  pattern : CmdWord
  mask : CmdWord
  build : (td ta tb : TagReg) → (imm : Word) → Instr

/-- The TAG rows of the opcode map (30_encoding.md R57). -/
def tagRows : List OpRow :=
  [ ⟨"TAG.FROMBYTES", 0x10#8, 0x1000000000000000#64, 0xFF3FFFFF00000000#64,
      fun td _ _ imm => .tagFromBytes td imm⟩,
    ⟨"TAG.FROMTEXT", 0x11#8, 0x1100000000000000#64, 0xFF3FFFFFFFFFFFFF#64,
      fun td _ _ _ => .tagFromText td⟩,
    ⟨"TAG.ISCRITICAL", 0x12#8, 0x1200000000000000#64, 0xFFCFFFFFFFFFFFFF#64,
      fun _ ta _ _ => .tagIsCritical ta⟩,
    ⟨"TAG.ISPUBLIC", 0x13#8, 0x1300000000000000#64, 0xFFCFFFFFFFFFFFFF#64,
      fun _ ta _ _ => .tagIsPublic ta⟩,
    ⟨"TAG.ISRESVALID", 0x14#8, 0x1400000000000000#64, 0xFFCFFFFFFFFFFFFF#64,
      fun _ ta _ _ => .tagIsResValid ta⟩,
    ⟨"TAG.ISSAFE", 0x15#8, 0x1500000000000000#64, 0xFFCFFFFFFFFFFFFF#64,
      fun _ ta _ _ => .tagIsSafe ta⟩,
    ⟨"TAG.ISVALID", 0x16#8, 0x1600000000000000#64, 0xFFCFFFFFFFFFFFFF#64,
      fun _ ta _ _ => .tagIsValid ta⟩,
    ⟨"TAG.BYTES", 0x17#8, 0x1700000000000000#64, 0xFFCFFFFFFFFFFFFF#64,
      fun _ ta _ _ => .tagBytes ta⟩,
    ⟨"TAG.TEXT", 0x18#8, 0x1800000000000000#64, 0xFFCFFFFFFFFFFFFF#64,
      fun _ ta _ _ => .tagText ta⟩,
    ⟨"TAG.EQ", 0x19#8, 0x1900000000000000#64, 0xFFC3FFFFFFFFFFFF#64,
      fun _ ta tb _ => .tagEq ta tb⟩ ]

/-- The CHUNK rows of the opcode map (30_encoding.md R57). -/
def chunkRows : List OpRow :=
  [ ⟨"CHUNK.NEW", 0x20#8, 0x2000000000000000#64, 0xFFCFFFFFFFFFFFFF#64,
      fun _ ta _ _ => .chunkNew ta⟩,
    ⟨"CHUNK.DECODE", 0x21#8, 0x2100000000000000#64, 0xFFFFFFFFFFFFFFFF#64,
      fun _ _ _ _ => .chunkDecode⟩,
    ⟨"CHUNK.ENCODE", 0x22#8, 0x2200000000000000#64, 0xFFFFFFFFFFFFFFFF#64,
      fun _ _ _ _ => .chunkEncode⟩,
    ⟨"CHUNK.TEXT", 0x23#8, 0x2300000000000000#64, 0xFFFFFFFFFFFFFFFF#64,
      fun _ _ _ _ => .chunkText⟩,
    ⟨"CHUNK.TYPE", 0x24#8, 0x2400000000000000#64, 0xFF3FFFFFFFFFFFFF#64,
      fun td _ _ _ => .chunkType td⟩,
    ⟨"CHUNK.PAYLOAD", 0x25#8, 0x2500000000000000#64, 0xFFFFFFFFFFFFFFFF#64,
      fun _ _ _ _ => .chunkPayload⟩ ]

/-- The whole opcode map (30_encoding.md R57): these 16 commands are the whole command set. -/
def opRows : List OpRow := tagRows ++ chunkRows

/-- Why a word selects no command (30_encoding.md R59): its operation code is unassigned, or a field
that its row does not use is not zero. -/
inductive Illegal where
  | unassignedOpcode
  | unusedFieldNotZero
  deriving DecidableEq, Repr

/-- The decoding procedure of 30_encoding.md R63: total, and it reads the word alone (R60). -/
def decode (w : CmdWord) : Except Illegal Instr :=
  match opRows.find? (fun row => row.opc == CmdWord.opc w) with
  | none => .error .unassignedOpcode
  | some row =>
    if w &&& row.mask = row.pattern then
      .ok (row.build (.ofNum (CmdWord.td w)) (.ofNum (CmdWord.ta w)) (.ofNum (CmdWord.tb w)) (CmdWord.imm w))
    else
      .error .unusedFieldNotZero

/-- The word with the fields `OPC`, `TD`, `TA`, `TB`, `ZERO` = 0 and `IMM` from bit 63 down
(30_encoding.md R54). -/
def cmdWord (opc : BitVec 8) (td ta tb : BitVec 2) (imm : Word) : CmdWord :=
  opc ++ (td ++ (ta ++ (tb ++ ((0#18) ++ imm))))

/-- The encoding of a command, absent operands 0 (30_encoding.md R57, R58, R61). -/
def encode : Instr → CmdWord
  | .tagFromBytes td imm => cmdWord 0x10#8 td.num 0#2 0#2 imm
  | .tagFromText td => cmdWord 0x11#8 td.num 0#2 0#2 0#32
  | .tagIsCritical ta => cmdWord 0x12#8 0#2 ta.num 0#2 0#32
  | .tagIsPublic ta => cmdWord 0x13#8 0#2 ta.num 0#2 0#32
  | .tagIsResValid ta => cmdWord 0x14#8 0#2 ta.num 0#2 0#32
  | .tagIsSafe ta => cmdWord 0x15#8 0#2 ta.num 0#2 0#32
  | .tagIsValid ta => cmdWord 0x16#8 0#2 ta.num 0#2 0#32
  | .tagBytes ta => cmdWord 0x17#8 0#2 ta.num 0#2 0#32
  | .tagText ta => cmdWord 0x18#8 0#2 ta.num 0#2 0#32
  | .tagEq ta tb => cmdWord 0x19#8 0#2 ta.num tb.num 0#32
  | .chunkNew ta => cmdWord 0x20#8 0#2 ta.num 0#2 0#32
  | .chunkDecode => cmdWord 0x21#8 0#2 0#2 0#2 0#32
  | .chunkEncode => cmdWord 0x22#8 0#2 0#2 0#2 0#32
  | .chunkText => cmdWord 0x23#8 0#2 0#2 0#2 0#32
  | .chunkType td => cmdWord 0x24#8 td.num 0#2 0#2 0#32
  | .chunkPayload => cmdWord 0x25#8 0#2 0#2 0#2 0#32

/-- The command word whose bits are `w`, numbered as 30_encoding.md R54 and the opcode table number
them (bit 0 the least significant), when only the low `nbits` are given: the rest are 0 (log entry 12). -/
def tableWord (nbits w : Nat) : CmdWord := BitVec.ofNat 64 (w % 2 ^ nbits)

/-- The command the decoder reads from a word of the opcode table; none where it is illegal. -/
def decodeTableWord (nbits w : Nat) : Option Instr :=
  match decode (tableWord nbits w) with
  | .ok i => some i
  | .error _ => none

end Sys2Proof
end

