-- ==== Sys2Proof/Machine/HostAction.lean ====
section
/-! DEFINITION. What the host can do to the block and what it gets back: the actions of
20_memory.md R41 as plain data. -/

namespace Sys2Proof.Machine

/-- The host-readable registers (20_memory.md R41, 10_state.md R21). -/
inductive HostReg where
  | status
  | errd0
  | errd1
  | res
  | tvalid
  | ckvalid
  | cklen
  | ckcrc
  | ilen
  | olen
  deriving DecidableEq, Repr

/-- A host action (20_memory.md R41: exactly these; each is one step, 00_scope.md R5). -/
inductive HostAction where
  /-- `H_RESET` -/
  | reset
  /-- `H_WRITE_IBUF(s)` -/
  | writeIbuf (s : List Byte)
  /-- `H_CMD(w)` -/
  | cmd (w : CmdWord)
  /-- `H_READ(r)` -/
  | read (r : HostReg)
  /-- `H_READ_OBUF` -/
  | readObuf
  deriving DecidableEq, Repr

/-- What a host action returns to the host (20_memory.md R41): a register's 32 bits as the host sees
them (10_state.md R21), or the bytes of OBUF. -/
inductive HostAnswer where
  | word (v : Word)
  | bytes (s : List Byte)
  deriving DecidableEq, Repr

end Sys2Proof.Machine
end

