-- ==== Sys2Proof/Machine/State.lean ====
section
/-! DEFINITION. The state of PNGME-CORE as plain data (10_state.md R10: exactly this and nothing else,
beside the two fields of the model's own that stand for the host), the outcomes that are not a next
state, and the state after reset (R25). -/

namespace Sys2Proof.Machine

/-- The contents of a buffer (IBUF, OBUF, or a chunk's payload): a byte sequence whose byte at offset
`a` is its `a`-th element (20_memory.md R30, 10_state.md R18). The offsets are the positions, so every
such list is in the one canonical form; offsets at or above the length have no value (R24). Log entry 9. -/
abbrev Memory := List Byte

/-- The value a chunk register holds (10_state.md R13). `crc` is the source's `checksum`. -/
structure Chunk where
  length : Word
  type : Bytes4
  payload : Memory
  crc : Word
  deriving DecidableEq, Repr

/-- The ways a command ends in error, with the numbers its detail words carry (60_exceptions.md R120,
R123). They are results, not faults: the command answers a next state. -/
inductive Err where
  | truncated (expected actual : Nat)
  | nonAlphabetic (index : Nat) (value : Byte)
  | wrongLength (expected actual : Nat)
  | checksumMismatch (computed stored : Word)
  | nonTextPayload
  | noTag (r : TagReg)
  | noChunk
  | illegalCommand (w : CmdWord)
  deriving DecidableEq, Repr

/-- The destination of a command (60_exceptions.md R121, the second table); an illegal word has none. -/
inductive Dest where
  | tag (r : TagReg)
  | ck
  | obuf
  | res
  | nothing
  deriving DecidableEq, Repr

/-- Why a step stops the machine with a fault. -/
inductive Fault where
  /-- Raised by the host action `H_READ` of CKLEN or CKCRC while CK is empty: the read has no value
  (10_state.md R24, 93_implementation_defined.md U1: "a fault of the model"). Safe: nothing can be
  proved of the bits the hardware returns. No command raises it. Log entry 7. -/
  | readOfEmptyChunk (r : HostReg)
  deriving DecidableEq, Repr

/-- Why a step gives no meaning to what the host asks. -/
inductive Refusal where
  /-- A command with no meaning yet; raised in exec's arm only, and no arm raises it now. Safe. -/
  | notModelled (mnemonic : String)
  /-- Raised by the host action `H_WRITE_IBUF(s)` with more than PMAX bytes: "the action has no meaning
  for it and a model refuses it" (20_memory.md R42, 93_implementation_defined.md U3). Safe. No command
  raises it. Log entry 8. -/
  | ibufTooLong (length : Nat)
  deriving DecidableEq, Repr

/-- The state of the block (10_state.md R10) with the host's side of the interface (20_memory.md R41). -/
structure State where
  /-- tag register T0 (10_state.md R11) -/
  t0 : Option Bytes4
  /-- tag register T1 -/
  t1 : Option Bytes4
  /-- tag register T2 -/
  t2 : Option Bytes4
  /-- tag register T3 -/
  t3 : Option Bytes4
  /-- the chunk register (R13) -/
  ck : Option Chunk
  /-- the result bit (R15) -/
  res : BitVec 1
  /-- STATUS: CODE in bits 2:0, SUB in bits 4:3 (R16) -/
  status : Word
  /-- the first error detail word (R17) -/
  errd0 : Word
  /-- the second error detail word (R17) -/
  errd1 : Word
  /-- the input buffer (R18) -/
  ibuf : Memory
  /-- the output buffer (R18) -/
  obuf : Memory
  /-- The model's own field: the host actions still to come, the next one first (R19: the host's finite
  sequence, folded over by the step). DESIGN CHOICE, log entry 4. -/
  host : List HostAction
  /-- The model's own field: what the last host action executed returned, if it returns a value
  (20_memory.md R41). DESIGN CHOICE, log entry 5. -/
  answer : Option HostAnswer
  deriving DecidableEq, Repr

/-- The state after reset (10_state.md R25): no object exists, every register 0, both buffers empty. The
two fields of the model's own are empty (DESIGN CHOICE, log entries 4 and 5). -/
def State.reset : State where
  t0 := none
  t1 := none
  t2 := none
  t3 := none
  ck := none
  res := 0#1
  status := 0#32
  errd0 := 0#32
  errd1 := 0#32
  ibuf := []
  obuf := []
  host := []
  answer := none

end Sys2Proof.Machine
end

