-- ==== Sys2Proof/Machine/Flags.lean ====
section
/-! DEFINITION. Every flag computation the spec gives: the alphabetic tests and the derived properties
of a type tag (41_typetag.md R80, R83), and the STATUS, ERRD0 and ERRD1 words of an outcome
(10_state.md R16, 60_exceptions.md R120, R123). -/

namespace Sys2Proof.Machine

/-- An uppercase ASCII letter (41_typetag.md R80). -/
def isUpper (b : Byte) : Bool := decide (0x41#8 ≤ b) && decide (b ≤ 0x5A#8)

/-- A lowercase ASCII letter (41_typetag.md R80). -/
def isLower (b : Byte) : Bool := decide (0x61#8 ≤ b) && decide (b ≤ 0x7A#8)

/-- An alphabetic byte (41_typetag.md R80). -/
def isAlpha (b : Byte) : Bool := isUpper b || isLower b

/-- uppercase byte 0 is critical (41_typetag.md R83) -/
def isCritical (c : Bytes4) : Bool := isUpper c.b0

/-- uppercase byte 1 is public (41_typetag.md R83) -/
def isPublic (c : Bytes4) : Bool := isUpper c.b1

/-- uppercase byte 2 is "reserved bit valid" (41_typetag.md R83) -/
def isReservedBitValid (c : Bytes4) : Bool := isUpper c.b2

/-- lowercase byte 3 is safe to copy: the polarity is the reverse of the others (41_typetag.md R83) -/
def isSafeToCopy (c : Bytes4) : Bool := isLower c.b3

/-- `isValid` is by definition the reserved-bit property (41_typetag.md R83, R88) -/
def isValid (c : Bytes4) : Bool := isReservedBitValid c

/-- STATUS.CODE of an error (60_exceptions.md R120; 0 is `OK`). -/
def Err.code : Err → BitVec 3
  | .truncated _ _ => 1#3
  | .nonAlphabetic _ _ => 2#3
  | .wrongLength _ _ => 2#3
  | .checksumMismatch _ _ => 3#3
  | .nonTextPayload => 4#3
  | .noTag _ => 5#3
  | .noChunk => 5#3
  | .illegalCommand _ => 6#3

/-- STATUS.SUB of an error (60_exceptions.md R120; 10_state.md R16). -/
def Err.sub : Err → BitVec 2
  | .truncated _ _ => 0#2
  | .nonAlphabetic _ _ => 1#2
  | .wrongLength _ _ => 2#2
  | .checksumMismatch _ _ => 0#2
  | .nonTextPayload => 0#2
  | .noTag _ => 0#2
  | .noChunk => 0#2
  | .illegalCommand _ => 0#2

/-- The STATUS word: CODE in bits 2:0, SUB in bits 4:3, the reserved bits 31:5 zero (10_state.md R16). -/
def statusWord (code : BitVec 3) (sub : BitVec 2) : Word := (0#27) ++ (sub ++ code)

/-- A byte count as a 32-bit word (10_state.md R17; 60_exceptions.md R123: the counts fit). -/
def countWord (n : Nat) : Word := BitVec.ofNat 32 n

/-- ERRD0 of an error (60_exceptions.md R123). -/
def Err.errd0 : Err → Word
  | .truncated expected _ => countWord expected
  | .nonAlphabetic index _ => countWord index
  | .wrongLength expected _ => countWord expected
  | .checksumMismatch computed _ => computed
  | .nonTextPayload => 0#32
  | .noTag _ => 0#32
  | .noChunk => 1#32
  | .illegalCommand w => w.extractLsb' 32 32

/-- ERRD1 of an error (60_exceptions.md R123). -/
def Err.errd1 : Err → Word
  | .truncated _ actual => countWord actual
  | .nonAlphabetic _ value => value.setWidth 32
  | .wrongLength _ actual => countWord actual
  | .checksumMismatch _ stored => stored
  | .nonTextPayload => 0#32
  | .noTag r => r.num.setWidth 32
  | .noChunk => 0#32
  | .illegalCommand w => w.extractLsb' 0 32

end Sys2Proof.Machine
end

