-- ==== Sys2Proof/Machine/Ops.lean ====
section
/-! DEFINITION. The named operations over registers and buffers, and the two ways a command ends: the
success commit and the error commit, the block's "trap entry" (60_exceptions.md R121, R122). An error
transfers no control and there is no return from one (R126), so nothing is saved. -/

namespace Sys2Proof.Machine

/-! ### Buffers -/

/-- The byte at offset `a`; none at or above the current length, where a read has no value
(10_state.md R24). -/
def Memory.read (m : Memory) (a : Nat) : Option Byte := m[a]?

/-- `MemRead(m, a, n)`: the bytes with offsets `a` to `a + n - 1` (00_scope.md R8), fewer where the
buffer ends before. -/
def Memory.slice (m : Memory) (a n : Nat) : List Byte := (m.drop a).take n

/-- A buffer holds at most its capacity (20_memory.md R30). Offsets are positions, so this is all the
form a buffer has. -/
def Memory.wf (capacity : Nat) (m : Memory) : Bool := decide (m.length ≤ capacity)

/-- The buffer as (offset, byte) cells. -/
def Memory.cells (m : Memory) : List Host.Cell := m.zipIdx.map (fun p => (p.2, p.1))

/-! ### Registers -/

/-- `T[r]` (00_scope.md R8, 10_state.md R11). -/
def State.tag (s : State) : TagReg → Option Bytes4
  | .t0 => s.t0
  | .t1 => s.t1
  | .t2 => s.t2
  | .t3 => s.t3

/-- `T[r] <- v`: the register is replaced as a whole (10_state.md R11). -/
def State.setTag (s : State) (r : TagReg) (v : Option Bytes4) : State :=
  match r with
  | .t0 => { s with t0 := v }
  | .t1 => { s with t1 := v }
  | .t2 => { s with t2 := v }
  | .t3 => { s with t3 := v }

/-- `CK <- some c` (10_state.md R13). -/
def State.setChunk (s : State) (c : Chunk) : State := { s with ck := some c }

/-- `OBUF <- m`, the whole buffer (00_scope.md R8: MemWrite). -/
def State.setObuf (s : State) (m : Memory) : State := { s with obuf := m }

/-- `RES <- 1 if b else 0` (10_state.md R15). -/
def State.setRes (s : State) (b : Bool) : State := { s with res := BitVec.ofBool b }

/-! ### How a command ends -/

/-- STATUS, ERRD0 and ERRD1 are written together, all of them by every command (10_state.md R16, R23). -/
def State.setOutcome (s : State) (status errd0 errd1 : Word) : State :=
  { s with status := status, errd0 := errd0, errd1 := errd1 }

/-- The success commit `ok` (60_exceptions.md R122), after the destination has been written. -/
def State.ok (s : State) : State := s.setOutcome (statusWord 0#3 0#2) 0#32 0#32

/-- The destination is made empty (60_exceptions.md R121, item 2). -/
def State.clear (s : State) : Dest → State
  | .tag r => s.setTag r none
  | .ck => { s with ck := none }
  | .obuf => s.setObuf []
  | .res => s.setRes false
  | .nothing => s

/-- The error commit `raise e` of a command with destination `d` (60_exceptions.md R121). -/
def State.raise (s : State) (d : Dest) (e : Err) : State :=
  (s.clear d).setOutcome (statusWord e.code e.sub) e.errd0 e.errd1

/-! ### What the host reads -/

/-- Bit `i` of TVALID: 1 iff the register holds a tag (10_state.md R21). -/
def validBit (v : Option Bytes4) : BitVec 1 := BitVec.ofBool v.isSome

/-- OLEN as the host sees it (10_state.md R21). A length that 32 bits cannot hold has no stated value:
the free value of log entry 10. -/
def olenWord (n : Nat) : Word := if n < 4294967296 then countWord n else Config.olenTooBig n

/-- The host-visible registers, 32 bits each, narrower contents zero-extended (10_state.md R21). None
where the read has no value (R24): CKLEN and CKCRC while CK is empty. -/
def State.hostReg (s : State) : HostReg → Option Word
  | .status => some s.status
  | .errd0 => some s.errd0
  | .errd1 => some s.errd1
  | .res => some (s.res.setWidth 32)
  | .tvalid => some ((0#28) ++ (validBit s.t3 ++ (validBit s.t2 ++ (validBit s.t1 ++ validBit s.t0))))
  | .ckvalid => some ((BitVec.ofBool s.ck.isSome).setWidth 32)
  | .cklen => s.ck.map Chunk.length
  | .ckcrc => s.ck.map Chunk.crc
  | .ilen => some (countWord s.ibuf.length)
  | .olen => some (olenWord s.obuf.length)

end Sys2Proof.Machine
end

