-- ==== Sys2Proof/Machine/Operands.lean ====
section
/-! DEFINITION. Every operand form: the immediate's four raw bytes (30_encoding.md R55), big-endian
fields of a buffer (20_memory.md R31), the scan for a byte that is no letter (00_scope.md R8), and the
fetch of a source register (41_typetag.md R92, 60_exceptions.md R128). -/

namespace Sys2Proof.Machine

/-- What a command's meaning answers. -/
abbrev Outcome := Host.Outcome State Fault Refusal

/-- `be32`: the word of four bytes, the most significant first (20_memory.md R31). -/
def be32 (c : Bytes4) : Word := c.b0 ++ (c.b1 ++ (c.b2 ++ c.b3))

/-- `be32bytes`: the four bytes of a word, the most significant first (20_memory.md R31, 30_encoding.md
R55). -/
def be32bytes (v : Word) : Bytes4 :=
  ⟨v.extractLsb' 24 8, v.extractLsb' 16 8, v.extractLsb' 8 8, v.extractLsb' 0 8⟩

/-- A byte sequence as four bytes; none where its length is not 4. -/
def bytes4? : List Byte → Option Bytes4
  | [b0, b1, b2, b3] => some ⟨b0, b1, b2, b3⟩
  | _ => none

/-- The four-byte field at offset `a`; none where fewer than four bytes remain (42_chunk.md R101). -/
def Memory.field4 (m : Memory) (a : Nat) : Option Bytes4 := bytes4? (m.slice a 4)

/-- The first byte that is no letter and its index, counting from `k`. -/
def firstNonAlphaFrom (k : Nat) : List Byte → Option (Nat × Byte)
  | [] => none
  | b :: rest => if isAlpha b then firstNonAlphaFrom (k + 1) rest else some (k, b)

/-- `firstNonAlpha` (00_scope.md R8): the least index whose byte is no letter, with that byte; none when
every byte is a letter. -/
def firstNonAlpha (s : List Byte) : Option (Nat × Byte) := firstNonAlphaFrom 0 s

/-- Source-operand fetch of `T[r]` by a command with destination `d` (41_typetag.md R92): an empty
register ends the command with `NoObject(0, r)`; else the command goes on with the code. -/
def withTag (d : Dest) (r : TagReg) (s : State) (go : Bytes4 → Outcome) : Outcome :=
  match s.tag r with
  | none => .next (s.raise d (.noTag r))
  | some c => go c

/-- Source-operand fetch of `CK` by a command with destination `d` (60_exceptions.md R128): `NoObject(1, 0)`
where it is empty. -/
def withChunk (d : Dest) (s : State) (go : Chunk → Outcome) : Outcome :=
  match s.ck with
  | none => .next (s.raise d .noChunk)
  | some c => go c

end Sys2Proof.Machine
end

