-- ==== Sys2Proof/Machine/Utf8.lean ====
section
/-! DEFINITION. `utf8Valid` (42_chunk.md R105): the table of well-formed byte sequences and the
left-to-right scan. PRESUMED (log entry 3): the spec marks the table as general knowledge. -/

namespace Sys2Proof.Machine

/-- A range of byte values, both ends in it. -/
structure ByteRange where
  lo : Byte
  hi : Byte
  deriving DecidableEq, Repr

/-- The byte lies in the range. -/
def inRange (r : ByteRange) (b : Byte) : Bool := decide (r.lo ≤ b) && decide (b ≤ r.hi)

/-- A row of the table: the range of the first byte and those of the bytes after it. -/
structure Utf8Row where
  first : ByteRange
  rest : List ByteRange
  deriving DecidableEq, Repr

/-- The nine shapes of 42_chunk.md R105. -/
def utf8Rows : List Utf8Row :=
  [ ⟨⟨0x00, 0x7F⟩, []⟩,
    ⟨⟨0xC2, 0xDF⟩, [⟨0x80, 0xBF⟩]⟩,
    ⟨⟨0xE0, 0xE0⟩, [⟨0xA0, 0xBF⟩, ⟨0x80, 0xBF⟩]⟩,
    ⟨⟨0xE1, 0xEC⟩, [⟨0x80, 0xBF⟩, ⟨0x80, 0xBF⟩]⟩,
    ⟨⟨0xED, 0xED⟩, [⟨0x80, 0x9F⟩, ⟨0x80, 0xBF⟩]⟩,
    ⟨⟨0xEE, 0xEF⟩, [⟨0x80, 0xBF⟩, ⟨0x80, 0xBF⟩]⟩,
    ⟨⟨0xF0, 0xF0⟩, [⟨0x90, 0xBF⟩, ⟨0x80, 0xBF⟩, ⟨0x80, 0xBF⟩]⟩,
    ⟨⟨0xF1, 0xF3⟩, [⟨0x80, 0xBF⟩, ⟨0x80, 0xBF⟩, ⟨0x80, 0xBF⟩]⟩,
    ⟨⟨0xF4, 0xF4⟩, [⟨0x80, 0x8F⟩, ⟨0x80, 0xBF⟩, ⟨0x80, 0xBF⟩]⟩ ]

/-- The scan of 42_chunk.md R105. `due` holds the ranges of the bytes still due in the sequence begun;
where none is due, the next byte picks the row whose "first" range holds it. A sequence cut short by
the end is invalid. -/
def utf8Scan : (due : List ByteRange) → List Byte → Bool
  | [], [] => true
  | _ :: _, [] => false
  | [], b :: p =>
    match utf8Rows.find? (fun row => inRange row.first b) with
    | none => false
    | some row => utf8Scan row.rest p
  | r :: due, b :: p => inRange r b && utf8Scan due p

/-- `utf8Valid(p)` (42_chunk.md R105). -/
def utf8Valid (p : List Byte) : Bool := utf8Scan [] p

end Sys2Proof.Machine
end

