-- ==== Sys2Proof/Machine/Chunk.lean ====
section
/-! DEFINITION. The six commands of the chunk framer (42_chunk.md). -/

namespace Sys2Proof.Machine

/-- The checksum's span is the four type bytes and then the payload (40_crc32.md R75). -/
def spanCrc (type : Bytes4) (payload : Memory) : Word := crc32 (type.toList ++ payload)

/-- CHUNK.NEW ta (42_chunk.md R100): the payload is the whole of IBUF. -/
def execChunkNew (ta : TagReg) (s : State) : Outcome :=
  withTag .ck ta s (fun ty =>
    .next (s.setChunk ⟨countWord s.ibuf.length, ty, s.ibuf, spanCrc ty s.ibuf⟩).ok)

/-- Steps 4 and 5 of CHUNK.DECODE (42_chunk.md R101): the checksum field and the validation
(40_crc32.md R77), once the length `len`, the type and the payload are known. -/
def parseChecksum (b : Memory) (len : Word) (ty : Bytes4) : Except Err Chunk :=
  match b.field4 (8 + len.toNat) with
  | none => .error (.truncated 4 (b.length - 8 - len.toNat))
  | some crcField =>
    let pay := b.slice 8 len.toNat
    if spanCrc ty pay = be32 crcField then
      .ok ⟨len, ty, pay, be32 crcField⟩
    else
      .error (.checksumMismatch (spanCrc ty pay) (be32 crcField))

/-- The parse of CHUNK.DECODE (42_chunk.md R101), step by step in wire order; all counts are natural
numbers (20_memory.md R33), and bytes after the record are not looked at. -/
def parseRecord (b : Memory) : Except Err Chunk :=
  match b.field4 0 with
  | none => .error (.truncated 4 b.length)
  | some lenField =>
    match b.field4 4 with
    | none => .error (.truncated 4 (b.length - 4))
    | some ty =>
      match firstNonAlpha ty.toList with
      | some (i, v) => .error (.nonAlphabetic i v)
      | none =>
        if b.length - 8 < (be32 lenField).toNat then
          .error (.truncated (be32 lenField).toNat (b.length - 8))
        else
          parseChecksum b (be32 lenField) ty

/-- CHUNK.DECODE (42_chunk.md R101). -/
def execChunkDecode (s : State) : Outcome :=
  match parseRecord s.ibuf with
  | .error e => .next (s.raise .ck e)
  | .ok c => .next (s.setChunk c).ok

/-- The wire record of a chunk (42_chunk.md R102, 30_encoding.md R50): the stored crc is emitted. -/
def Chunk.record (c : Chunk) : List Byte :=
  (be32bytes c.length).toList ++ c.type.toList ++ c.payload ++ (be32bytes c.crc).toList

/-- CHUNK.ENCODE (42_chunk.md R102). -/
def execChunkEncode (s : State) : Outcome :=
  withChunk .obuf s (fun c => .next (s.setObuf c.record).ok)

/-- CHUNK.TEXT (42_chunk.md R104). -/
def execChunkText (s : State) : Outcome :=
  withChunk .obuf s (fun c =>
    if utf8Valid c.payload then .next (s.setObuf c.payload).ok
    else .next (s.raise .obuf .nonTextPayload))

/-- CHUNK.TYPE td (42_chunk.md R106). -/
def execChunkType (td : TagReg) (s : State) : Outcome :=
  withChunk (.tag td) s (fun c => .next (s.setTag td (some c.type)).ok)

/-- CHUNK.PAYLOAD (42_chunk.md R107). -/
def execChunkPayload (s : State) : Outcome :=
  withChunk .obuf s (fun c => .next (s.setObuf c.payload).ok)

end Sys2Proof.Machine
end

