-- ==== Sys2Proof/Machine/Tag.lean ====
section
/-! DEFINITION. The ten commands of the type-tag unit (41_typetag.md). -/

namespace Sys2Proof.Machine

/-- TAG.FROMBYTES td, imm (41_typetag.md R81). -/
def execTagFromBytes (td : TagReg) (imm : Word) (s : State) : Outcome :=
  match firstNonAlpha (be32bytes imm).toList with
  | some (i, b) => .next (s.raise (.tag td) (.nonAlphabetic i b))
  | none => .next (s.setTag td (some (be32bytes imm))).ok

/-- TAG.FROMTEXT td (41_typetag.md R82): the letters are checked first, over the whole text, and only then
the length; the order is normative. -/
def execTagFromText (td : TagReg) (s : State) : Outcome :=
  match firstNonAlpha s.ibuf with
  | some (i, b) => .next (s.raise (.tag td) (.nonAlphabetic i b))
  | none =>
    match bytes4? s.ibuf with
    | none => .next (s.raise (.tag td) (.wrongLength 4 s.ibuf.length))
    | some c => .next (s.setTag td (some c)).ok

/-- A query of `T[ta]` (41_typetag.md section 3): the property goes to RES. -/
def queryTag (property : Bytes4 → Bool) (ta : TagReg) (s : State) : Outcome :=
  withTag .res ta s (fun c => .next (s.setRes (property c)).ok)

/-- TAG.ISCRITICAL ta (41_typetag.md R84). -/
def execTagIsCritical (ta : TagReg) (s : State) : Outcome := queryTag isCritical ta s

/-- TAG.ISPUBLIC ta (41_typetag.md R85). -/
def execTagIsPublic (ta : TagReg) (s : State) : Outcome := queryTag isPublic ta s

/-- TAG.ISRESVALID ta (41_typetag.md R86). -/
def execTagIsResValid (ta : TagReg) (s : State) : Outcome := queryTag isReservedBitValid ta s

/-- TAG.ISSAFE ta (41_typetag.md R87). -/
def execTagIsSafe (ta : TagReg) (s : State) : Outcome := queryTag isSafeToCopy ta s

/-- TAG.ISVALID ta (41_typetag.md R88). -/
def execTagIsValid (ta : TagReg) (s : State) : Outcome := queryTag isValid ta s

/-- `T[ta]` copied to OBUF (41_typetag.md R89, R90). -/
def copyTagOut (ta : TagReg) (s : State) : Outcome :=
  withTag .obuf ta s (fun c => .next (s.setObuf c.toList).ok)

/-- TAG.BYTES ta (41_typetag.md R89). -/
def execTagBytes (ta : TagReg) (s : State) : Outcome := copyTagOut ta s

/-- TAG.TEXT ta (41_typetag.md R90): one ASCII character a byte, so the bytes are those of TAG.BYTES. -/
def execTagText (ta : TagReg) (s : State) : Outcome := copyTagOut ta s

/-- TAG.EQ ta, tb (41_typetag.md R91): `T[ta]` is tested for emptiness before `T[tb]`. -/
def execTagEq (ta tb : TagReg) (s : State) : Outcome :=
  withTag .res ta s (fun a => withTag .res tb s (fun b => .next (s.setRes (decide (a = b))).ok))

end Sys2Proof.Machine
end

