-- ==== Sys2Proof/Machine/Dispatch.lean ====
section
/-! DEFINITION. The meaning of every command (30_encoding.md R57): one arm per constructor of Instr. -/

namespace Sys2Proof.Machine

def exec (i : Instr) (s : State) : Host.Outcome State Fault Refusal :=
  match i with
  | .tagFromBytes td imm => Sys2Proof.Machine.execTagFromBytes td imm s
  | .tagFromText td => Sys2Proof.Machine.execTagFromText td s
  | .tagIsCritical ta => Sys2Proof.Machine.execTagIsCritical ta s
  | .tagIsPublic ta => Sys2Proof.Machine.execTagIsPublic ta s
  | .tagIsResValid ta => Sys2Proof.Machine.execTagIsResValid ta s
  | .tagIsSafe ta => Sys2Proof.Machine.execTagIsSafe ta s
  | .tagIsValid ta => Sys2Proof.Machine.execTagIsValid ta s
  | .tagBytes ta => Sys2Proof.Machine.execTagBytes ta s
  | .tagText ta => Sys2Proof.Machine.execTagText ta s
  | .tagEq ta tb => Sys2Proof.Machine.execTagEq ta tb s
  | .chunkNew ta => Sys2Proof.Machine.execChunkNew ta s
  | .chunkDecode => Sys2Proof.Machine.execChunkDecode s
  | .chunkEncode => Sys2Proof.Machine.execChunkEncode s
  | .chunkText => Sys2Proof.Machine.execChunkText s
  | .chunkType td => Sys2Proof.Machine.execChunkType td s
  | .chunkPayload => Sys2Proof.Machine.execChunkPayload s

end Sys2Proof.Machine
end

