-- ==== Sys2Proof/Machine/HostIf.lean ====
section
/-! DEFINITION. The five host actions (20_memory.md R41), each one step. -/

namespace Sys2Proof.Machine

/-- The host's next action is taken: `rest` remain, and nothing has been returned for it yet. -/
def State.take (s : State) (rest : List HostAction) : State := { s with host := rest, answer := none }

/-- `H_RESET` (70_reset_and_hazards.md R140): every piece of the block's state takes the value of
10_state.md R25. The host's remaining actions are the host's and stay (log entry 4). -/
def runReset (s : State) : Outcome := .next { State.reset with host := s.host }

/-- `H_WRITE_IBUF(b)` (20_memory.md R42): the whole input buffer is replaced, nothing else changes; a
sequence longer than PMAX cannot be presented and is refused (log entry 8). -/
def runWriteIbuf (b : Memory) (s : State) : Outcome :=
  if b.length ≤ Config.pmax then .next { s with ibuf := b } else .refused (.ibufTooLong b.length)

/-- `H_CMD(w)` (20_memory.md R41): the command the word decodes to is executed; an illegal word raises
`IllegalCommand`, which clears no destination (60_exceptions.md R127). Decoding precedes every other
check (R124). -/
def runCmd (w : CmdWord) (s : State) : Outcome :=
  match decode w with
  | .ok i => exec i s
  | .error _ => .next (s.raise .nothing (.illegalCommand w))

/-- `H_READ(r)` (20_memory.md R41): the value is returned to the host, the block does not change; a read
that has no value is a fault of the model (10_state.md R24, log entry 7). -/
def runRead (r : HostReg) (s : State) : Outcome :=
  match s.hostReg r with
  | some v => .next { s with answer := some (.word v) }
  | none => .fault (.readOfEmptyChunk r)

/-- `H_READ_OBUF` (20_memory.md R41): all OLEN bytes of OBUF are returned, the block does not change. -/
def runReadObuf (s : State) : Outcome := .next { s with answer := some (.bytes s.obuf) }

/-- One host action (20_memory.md R41). -/
def runAction (a : HostAction) (s : State) : Outcome :=
  match a with
  | .reset => runReset s
  | .writeIbuf b => runWriteIbuf b s
  | .cmd w => runCmd w s
  | .read r => runRead r s
  | .readObuf => runReadObuf s

/-- One step from the host's list of actions: the next action runs; where the list is exhausted the block
is idle and nothing changes (60_exceptions.md R134, 70_reset_and_hazards.md R145; log entry 6). -/
def runNext (s : State) : Outcome :=
  match s.host with
  | [] => .next s
  | a :: rest => runAction a (s.take rest)

/-- The host's next action is `H_CMD` of the word, before all it had left to do. -/
def placeCmd (w : CmdWord) (s : State) : State := { s with host := .cmd w :: s.host }

end Sys2Proof.Machine
end

