-- ==== Sys2Proof/Machine/Step.lean ====
section
/-! DEFINITION. One step of the machine: one host action (00_scope.md R5). -/

namespace Sys2Proof.Machine

/-- One step (00_scope.md R5: a step is one host action). -/
def step (s : State) : Host.Outcome State Fault Refusal := runNext s

/-- `s` with the command word of the opcode table presented by the host's next action, so that the very
next step runs it. The block fetches nothing (20_memory.md R44); the host hands over each word (log
entries 4 and 12). -/
def State.withFetchWord (s : State) (nbits w : Nat) : State := placeCmd (tableWord nbits w) s

end Sys2Proof.Machine
end

