-- ==== Sys2Proof/Safety.lean ====
section
/-! DEFINITION. What holds of every state the block can be in: the register and buffer invariants of
10_state.md (R12, R14, R16, R17, R18), and what it means that a destination is empty. -/

namespace Sys2Proof.Machine

/-- Every byte is a letter: the construction invariant of a type tag (10_state.md R12). -/
def Bytes4.wellFormed (c : Bytes4) : Bool := c.toList.all isAlpha

/-- The four invariants of a chunk (10_state.md R14). -/
structure Chunk.Inv (c : Chunk) : Prop where
  length_eq : c.length.toNat = c.payload.length
  crc_eq : c.crc = crc32 (c.type.toList ++ c.payload)
  type_letters : Bytes4.wellFormed c.type = true
  fits : Memory.wf Config.pmax c.payload = true

/-- The eight values STATUS ever holds (10_state.md R16). -/
def statusValues : List Word := [0x00#32, 0x01#32, 0x0A#32, 0x12#32, 0x03#32, 0x04#32, 0x05#32, 0x06#32]

/-- The invariant of the block's state: tag registers hold letters (10_state.md R12), the chunk register
holds a consistent chunk (R14), the buffers are within their capacities (R10, R18), STATUS holds one of
its eight values (R16), and both detail words are 0 after success (R17). -/
structure State.Inv (s : State) : Prop where
  tags : ∀ r c, s.tag r = some c → Bytes4.wellFormed c = true
  chunk : ∀ c, s.ck = some c → c.Inv
  ibuf_fits : Memory.wf Config.pmax s.ibuf = true
  obuf_fits : Memory.wf (Config.pmax + 12) s.obuf = true
  status_value : s.status ∈ statusValues
  no_detail_after_ok : s.status = 0#32 → s.errd0 = 0#32 ∧ s.errd1 = 0#32

/-- The destination of a command (60_exceptions.md R121, the second table). -/
def destOf : Instr → Dest
  | .tagFromBytes td _ => .tag td
  | .tagFromText td => .tag td
  | .tagIsCritical _ => .res
  | .tagIsPublic _ => .res
  | .tagIsResValid _ => .res
  | .tagIsSafe _ => .res
  | .tagIsValid _ => .res
  | .tagBytes _ => .obuf
  | .tagText _ => .obuf
  | .tagEq _ _ => .res
  | .chunkNew _ => .ck
  | .chunkDecode => .ck
  | .chunkEncode => .obuf
  | .chunkText => .obuf
  | .chunkType td => .tag td
  | .chunkPayload => .obuf

/-- The destination is empty in `s` (60_exceptions.md R121, item 2). -/
def State.emptyAt (s : State) : Dest → Prop
  | .tag r => s.tag r = none
  | .ck => s.ck = none
  | .obuf => s.obuf = []
  | .res => s.res = 0#1
  | .nothing => True

/-- Outside the destination `d` and the outcome words STATUS, ERRD0 and ERRD1 the two states of the block
are the same: tag registers, CK, RES and every byte of both buffers (10_state.md R23). -/
structure SameExcept (d : Dest) (s t : State) : Prop where
  tags : ∀ r, d ≠ .tag r → t.tag r = s.tag r
  ck : d ≠ .ck → t.ck = s.ck
  res : d ≠ .res → t.res = s.res
  obuf : d ≠ .obuf → t.obuf.length = s.obuf.length ∧ ∀ a, Memory.read t.obuf a = Memory.read s.obuf a
  ibuf : t.ibuf.length = s.ibuf.length ∧ ∀ a, Memory.read t.ibuf a = Memory.read s.ibuf a

end Sys2Proof.Machine
end

