-- ==== Sys2Proof/WellFormed.lean ====
section
/-! DEFINITION. Which commands and which host actions are well-formed. -/

namespace Sys2Proof

/-- A command is well-formed when its operands fit their fields (30_encoding.md R54). The operand types
hold exactly the legal operands (R56: all four register numbers are legal; R55: every 32-bit value is
a legal immediate), so no constructor has a check left to make (log entry 11). -/
def Instr.wf : Instr → Bool
  | .tagFromBytes _ _ => true
  | .tagFromText _ => true
  | .tagIsCritical _ => true
  | .tagIsPublic _ => true
  | .tagIsResValid _ => true
  | .tagIsSafe _ => true
  | .tagIsValid _ => true
  | .tagBytes _ => true
  | .tagText _ => true
  | .tagEq _ _ => true
  | .chunkNew _ => true
  | .chunkDecode => true
  | .chunkEncode => true
  | .chunkText => true
  | .chunkType _ => true
  | .chunkPayload => true

/-- A host action is well-formed when its precondition on the action alone holds: the sequence of an
`H_WRITE_IBUF` is at most PMAX bytes long (20_memory.md R41, R42). -/
def Machine.HostAction.wf : Machine.HostAction → Bool
  | .reset => true
  | .writeIbuf s => decide (s.length ≤ Config.pmax)
  | .cmd _ => true
  | .read _ => true
  | .readObuf => true

end Sys2Proof
end

