-- ==== Sys2Proof/Certificates/Slice0/Obligations.lean ====
section
/-! DEFINITION. The statements about the machine, from the numbered rules of the spec, and the spec's own
notation that they are written in (00_scope.md R8), stated apart from the model's functions wherever the
model has a function for the same thing. -/

open Sys2Proof Sys2Proof.Machine

namespace Sys2Proof.Claims

/-! ### The notation of 00_scope.md R8 -/

/-- The field of bits `hi` down to `lo` of a value, as a natural number: `(v div 2^lo) mod 2^(hi-lo+1)`. -/
def field (v hi lo : Nat) : Nat := v / 2 ^ lo % 2 ^ (hi - lo + 1)

/-- The tag register a field selects by number. -/
def regNo : Nat → TagReg
  | 0 => .t0
  | 1 => .t1
  | 2 => .t2
  | _ => .t3

/-- The number of a tag register. -/
def noOf : TagReg → Nat
  | .t0 => 0
  | .t1 => 1
  | .t2 => 2
  | .t3 => 3

/-- `0x41 <= b <= 0x5A` (41_typetag.md R80). -/
abbrev Upper (b : Byte) : Prop := 0x41 ≤ b.toNat ∧ b.toNat ≤ 0x5A

/-- `0x61 <= b <= 0x7A` (41_typetag.md R80). -/
abbrev Lower (b : Byte) : Prop := 0x61 ≤ b.toNat ∧ b.toNat ≤ 0x7A

/-- An ASCII letter (41_typetag.md R80). -/
abbrev Letter (b : Byte) : Prop := Upper b ∨ Lower b

/-- `i` is the least index of a byte of `l` that is no letter, and `b` is that byte. -/
def FirstNonLetter (l : List Byte) (i : Nat) (b : Byte) : Prop :=
  l[i]? = some b ∧ ¬ Letter b ∧ ∀ j c, j < i → l[j]? = some c → Letter c

/-- Every byte of `l` is a letter. -/
def AllLetters (l : List Byte) : Prop := ∀ b ∈ l, Letter b

/-- `b[0]*2^24 + b[1]*2^16 + b[2]*2^8 + b[3]` (20_memory.md R31). -/
def be32Nat (c : Bytes4) : Nat :=
  c.b0.toNat * 2 ^ 24 + c.b1.toNat * 2 ^ 16 + c.b2.toNat * 2 ^ 8 + c.b3.toNat

/-- The four bytes `v[31:24], v[23:16], v[15:8], v[7:0]` of a number (20_memory.md R31). -/
def be32Bytes (v : Nat) : Bytes4 :=
  ⟨BitVec.ofNat 8 (field v 31 24), BitVec.ofNat 8 (field v 23 16), BitVec.ofNat 8 (field v 15 8),
    BitVec.ofNat 8 (field v 7 0)⟩

/-- 1 when the proposition holds, else 0. -/
def bit (p : Prop) [Decidable p] : BitVec 1 := if p then 1#1 else 0#1

/-- The command answers a next state `t` that differs from `s` in the destination `d` and in STATUS, ERRD0
and ERRD1 only (10_state.md R23), holds these three words there, and has `P`. -/
def Answers (i : Instr) (s : State) (d : Dest) (status errd0 errd1 : Nat) (P : State → Prop) : Prop :=
  ∃ t, exec i s = .next t ∧ SameExcept d s t ∧ t.status = BitVec.ofNat 32 status ∧
    t.errd0 = BitVec.ofNat 32 errd0 ∧ t.errd1 = BitVec.ofNat 32 errd1 ∧ P t

/-- A row of the opcode map (30_encoding.md R57): "match", "mask", and the command of the row as a function
of the word's fields. -/
structure MapRow where
  pattern : CmdWord
  mask : CmdWord
  command : CmdWord → Instr

/-- `TD` as a register (30_encoding.md R54, R56). -/
def tdOf (w : CmdWord) : TagReg := regNo (field w.toNat 55 54)

/-- `TA` as a register. -/
def taOf (w : CmdWord) : TagReg := regNo (field w.toNat 53 52)

/-- `TB` as a register. -/
def tbOf (w : CmdWord) : TagReg := regNo (field w.toNat 51 50)

/-- The sixteen rows of the opcode map (30_encoding.md R57). -/
def opcodeMap : List MapRow :=
  [ ⟨0x1000000000000000#64, 0xFF3FFFFF00000000#64,
      fun w => .tagFromBytes (tdOf w) (BitVec.ofNat 32 (field w.toNat 31 0))⟩,
    ⟨0x1100000000000000#64, 0xFF3FFFFFFFFFFFFF#64, fun w => .tagFromText (tdOf w)⟩,
    ⟨0x1200000000000000#64, 0xFFCFFFFFFFFFFFFF#64, fun w => .tagIsCritical (taOf w)⟩,
    ⟨0x1300000000000000#64, 0xFFCFFFFFFFFFFFFF#64, fun w => .tagIsPublic (taOf w)⟩,
    ⟨0x1400000000000000#64, 0xFFCFFFFFFFFFFFFF#64, fun w => .tagIsResValid (taOf w)⟩,
    ⟨0x1500000000000000#64, 0xFFCFFFFFFFFFFFFF#64, fun w => .tagIsSafe (taOf w)⟩,
    ⟨0x1600000000000000#64, 0xFFCFFFFFFFFFFFFF#64, fun w => .tagIsValid (taOf w)⟩,
    ⟨0x1700000000000000#64, 0xFFCFFFFFFFFFFFFF#64, fun w => .tagBytes (taOf w)⟩,
    ⟨0x1800000000000000#64, 0xFFCFFFFFFFFFFFFF#64, fun w => .tagText (taOf w)⟩,
    ⟨0x1900000000000000#64, 0xFFC3FFFFFFFFFFFF#64, fun w => .tagEq (taOf w) (tbOf w)⟩,
    ⟨0x2000000000000000#64, 0xFFCFFFFFFFFFFFFF#64, fun w => .chunkNew (taOf w)⟩,
    ⟨0x2100000000000000#64, 0xFFFFFFFFFFFFFFFF#64, fun _ => .chunkDecode⟩,
    ⟨0x2200000000000000#64, 0xFFFFFFFFFFFFFFFF#64, fun _ => .chunkEncode⟩,
    ⟨0x2300000000000000#64, 0xFFFFFFFFFFFFFFFF#64, fun _ => .chunkText⟩,
    ⟨0x2400000000000000#64, 0xFF3FFFFFFFFFFFFF#64, fun w => .chunkType (tdOf w)⟩,
    ⟨0x2500000000000000#64, 0xFFFFFFFFFFFFFFFF#64, fun _ => .chunkPayload⟩ ]

/-- The commands that use the `TD` field (30_encoding.md R57, "uses"). -/
def usesTd : Instr → Prop
  | .tagFromBytes _ _ => True
  | .tagFromText _ => True
  | .chunkType _ => True
  | _ => False

/-- The commands that use the `TA` field. -/
def usesTa : Instr → Prop
  | .tagIsCritical _ => True
  | .tagIsPublic _ => True
  | .tagIsResValid _ => True
  | .tagIsSafe _ => True
  | .tagIsValid _ => True
  | .tagBytes _ => True
  | .tagText _ => True
  | .tagEq _ _ => True
  | .chunkNew _ => True
  | _ => False

/-- The command that uses the `TB` field. -/
def usesTb : Instr → Prop
  | .tagEq _ _ => True
  | _ => False

/-- The command that uses the `IMM` field. -/
def usesImm : Instr → Prop
  | .tagFromBytes _ _ => True
  | _ => False

/-- The commands with a source among `T[ta]`, `T[tb]` and CK (60_exceptions.md R120, row `NoObject`). -/
def hasSource : Instr → Prop
  | .tagFromBytes _ _ => False
  | .tagFromText _ => False
  | .chunkDecode => False
  | _ => True

/-- The tag registers a command reads, in the order it tests them for emptiness (41_typetag.md R91, R92). -/
def tagSources : Instr → List TagReg
  | .tagIsCritical ta => [ta]
  | .tagIsPublic ta => [ta]
  | .tagIsResValid ta => [ta]
  | .tagIsSafe ta => [ta]
  | .tagIsValid ta => [ta]
  | .tagBytes ta => [ta]
  | .tagText ta => [ta]
  | .tagEq ta tb => [ta, tb]
  | .chunkNew ta => [ta]
  | _ => []

/-- The state is that of the table of 10_state.md R25, and so are the views on it. -/
def IsReset (t : State) : Prop :=
  (∀ r, t.tag r = none) ∧ t.ck = none ∧ t.res = 0#1 ∧ t.status = 0#32 ∧ t.errd0 = 0#32 ∧
    t.errd1 = 0#32 ∧ t.ibuf = [] ∧ t.obuf = [] ∧
    t.hostReg .tvalid = some 0#32 ∧ t.hostReg .ckvalid = some 0#32 ∧ t.hostReg .cklen = none ∧
    t.hostReg .ckcrc = none ∧ t.hostReg .ilen = some 0#32 ∧ t.hostReg .olen = some 0#32

/-- The parts of the block that 10_state.md R20 says commands may depend on are the same. -/
def SameInputs (s t : State) : Prop :=
  (∀ r, t.tag r = s.tag r) ∧ t.ck = s.ck ∧ t.ibuf = s.ibuf ∧ t.obuf = s.obuf

/-- Bit `k` of byte `i` of `b` inverted. -/
def flipBit (b : List Byte) (i k : Nat) : List Byte := b.modify i (fun v => v ^^^ (1#8 <<< k))

/-- A continuation byte `80..BF` (42_chunk.md R105). -/
abbrev ContByte (b : Byte) : Prop := 0x80 ≤ b.toNat ∧ b.toNat ≤ 0xBF

/-- The nine shapes of 42_chunk.md R105. -/
def Utf8Shape : List Byte → Prop
  | [a] => a.toNat ≤ 0x7F
  | [a, b] => (0xC2 ≤ a.toNat ∧ a.toNat ≤ 0xDF) ∧ ContByte b
  | [a, b, c] =>
    (a.toNat = 0xE0 ∧ (0xA0 ≤ b.toNat ∧ b.toNat ≤ 0xBF) ∧ ContByte c) ∨
    ((0xE1 ≤ a.toNat ∧ a.toNat ≤ 0xEC) ∧ ContByte b ∧ ContByte c) ∨
    (a.toNat = 0xED ∧ (0x80 ≤ b.toNat ∧ b.toNat ≤ 0x9F) ∧ ContByte c) ∨
    ((0xEE ≤ a.toNat ∧ a.toNat ≤ 0xEF) ∧ ContByte b ∧ ContByte c)
  | [a, b, c, d] =>
    (a.toNat = 0xF0 ∧ (0x90 ≤ b.toNat ∧ b.toNat ≤ 0xBF) ∧ ContByte c ∧ ContByte d) ∨
    ((0xF1 ≤ a.toNat ∧ a.toNat ≤ 0xF3) ∧ ContByte b ∧ ContByte c ∧ ContByte d) ∨
    (a.toNat = 0xF4 ∧ (0x80 ≤ b.toNat ∧ b.toNat ≤ 0x8F) ∧ ContByte c ∧ ContByte d)
  | _ => False

/-- The bit-serial byte step of 40_crc32.md R72: the bits of the byte one at a time from bit 0. -/
def crcSerial (c : Word) (b : Byte) : Word :=
  (List.range 8).foldl
    (fun c i => if (c.getLsbD 0 ^^ b.getLsbD i) = true then (c >>> 1) ^^^ 0xEDB88320#32 else c >>> 1) c

/-- One byte, its bits reversed, through the non-reflected register: it enters at the top, and eight times
the register moves left with the generator polynomial 0x04C11DB7 (40_crc32.md R70). -/
def crcLeftByte (c : Word) (b : Byte) : Word :=
  (List.range 8).foldl (fun c _ => if c.msb = true then (c <<< 1) ^^^ 0x04C11DB7#32 else c <<< 1)
    (c ^^^ (b.reverse.setWidth 32 <<< 24))

/-- The bytes `b` are exactly one wire record (30_encoding.md R50) with the given payload length `len`,
type, payload and checksum, which CHUNK.DECODE accepts (42_chunk.md R101). -/
structure GoodRecord (b : List Byte) (len : Nat) (ty : Bytes4) (pay : List Byte) : Prop where
  bytes : b = (be32Bytes len).toList ++ ty.toList ++ pay ++
    (be32Bytes (crc32 (ty.toList ++ pay)).toNat).toList
  len_eq : pay.length = len
  len_lt : len < 2 ^ 32
  letters : AllLetters ty.toList

end Sys2Proof.Claims

open Sys2Proof.Claims

/-! ### Encodings (30_encoding.md) -/

/-- Words written out in 30_encoding.md R61 (its examples) decode to the commands they stand for. -/
def Obligations.WordsWrittenInTheSpecDecode : Prop :=
  decode 0x1000000052755374#64 = .ok (.tagFromBytes .t0 0x52755374#32) ∧
  decode 0x1040000052755374#64 = .ok (.tagFromBytes .t1 0x52755374#32) ∧
  decode 0x1904000000000000#64 = .ok (.tagEq .t0 .t1) ∧
  decode 0x1210000000000000#64 = .ok (.tagIsCritical .t1) ∧
  decode 0x2020000000000000#64 = .ok (.chunkNew .t2) ∧
  decode 0x2440000000000000#64 = .ok (.chunkType .t1) ∧
  decode 0x2100000000000000#64 = .ok .chunkDecode

/-- Decoding gives every command back from its encoding: no bit of an encoding is dropped (30_encoding.md
R54, R57, R63). For every command with every operand. -/
def Obligations.DecodeOfEncodeGivesTheCommand : Prop :=
  ∀ i : Instr, i.wf = true → decode (encode i) = .ok i

/-- A word that decodes is the encoding of what it decodes to: no command has two words
(30_encoding.md R57, R58, R63). -/
def Obligations.EncodeOfDecodeGivesTheWord : Prop :=
  ∀ (w : CmdWord) (i : Instr), decode w = .ok i → encode i = w

/-- The decoder is the opcode map: a word selects a command iff it meets that row's match and mask, and
then the command is the row's, with the operands of the word's fields (30_encoding.md R57). -/
def Obligations.DecoderIsTheOpcodeMap : Prop :=
  ∀ (w : CmdWord) (i : Instr),
    decode w = .ok i ↔ ∃ row ∈ opcodeMap, w &&& row.mask = row.pattern ∧ row.command w = i

/-- The must-be-zero fields of a word that selects a command are 0 (30_encoding.md R58). -/
def Obligations.UnusedFieldsOfACommandAreZero : Prop :=
  ∀ (w : CmdWord) (i : Instr), decode w = .ok i →
    field w.toNat 49 32 = 0 ∧ (¬ usesTd i → field w.toNat 55 54 = 0) ∧
    (¬ usesTa i → field w.toNat 53 52 = 0) ∧ (¬ usesTb i → field w.toNat 51 50 = 0) ∧
    (¬ usesImm i → field w.toNat 31 0 = 0)

/-- A word that matches no row of the map raises IllegalCommand: STATUS, ERRD0 and ERRD1 are written and
the whole rest of the state is unchanged, whatever registers are empty (30_encoding.md R59,
60_exceptions.md R127). -/
def Obligations.IllegalWordWritesOnlyTheOutcome : Prop :=
  ∀ (w : CmdWord) (s : State), (∀ row ∈ opcodeMap, w &&& row.mask ≠ row.pattern) →
    runAction (.cmd w) s = .next { s with
      status := 6#32,
      errd0 := BitVec.ofNat 32 (field w.toNat 63 32),
      errd1 := BitVec.ofNat 32 (field w.toNat 31 0) }

/-! ### Steps and host actions (20_memory.md R41) -/

/-- A step whose next host action hands over a word that decodes to a command runs that command, once the
action is taken off the host's list and the answer of the action before is gone. The list and the
answer are the model's own fields (log entries 4 and 5). -/
def Obligations.StepRunsTheDecodedCommand : Prop :=
  ∀ (s : State) (w : CmdWord) (rest : List HostAction) (i : Instr),
    s.host = .cmd w :: rest → decode w = .ok i → i.wf = true →
    step s = exec i { s with host := rest, answer := none }

/-- A step takes the host's next action and runs it; where none is left nothing changes. The host's list
is the model's own field, and that an exhausted list leaves the block idle is the model's choice (log
entries 4, 5 and 6). -/
def Obligations.StepTakesTheNextHostAction : Prop :=
  (∀ (s : State) (a : HostAction) (rest : List HostAction), s.host = a :: rest →
    step s = runAction a { s with host := rest, answer := none }) ∧
  (∀ s : State, s.host = [] → step s = .next s)

/-- H_RESET takes the block from any state to the reset state, which State.reset is too (10_state.md R25,
70_reset_and_hazards.md R140). -/
def Obligations.ResetReachesTheResetState : Prop :=
  IsReset State.reset ∧ ∀ s : State, ∃ t, runAction .reset s = .next t ∧ IsReset t

/-- H_WRITE_IBUF replaces the whole input buffer and changes nothing else; a sequence longer than PMAX is
refused (20_memory.md R42). The form and the name of the refusal are the model's choice (log entry 8). -/
def Obligations.WriteIbufReplacesTheBuffer : Prop :=
  ∀ (s : State) (b : List Byte),
    (b.length ≤ Config.pmax → runAction (.writeIbuf b) s = .next { s with ibuf := b }) ∧
    (Config.pmax < b.length → runAction (.writeIbuf b) s = .refused (.ibufTooLong b.length))

/-- The contents of the host-visible registers (10_state.md R21), those of OLEN while they fit 32 bits. -/
def Obligations.HostVisibleRegistersHoldTheirContents : Prop :=
  ∀ s : State,
    s.hostReg .status = some s.status ∧ s.hostReg .errd0 = some s.errd0 ∧ s.hostReg .errd1 = some s.errd1 ∧
    (∃ v, s.hostReg .res = some v ∧ v.toNat = s.res.toNat) ∧
    (∃ v, s.hostReg .tvalid = some v ∧ v.toNat < 16 ∧
      ∀ r, v.getLsbD (noOf r) = (s.tag r).isSome) ∧
    (∃ v, s.hostReg .ckvalid = some v ∧ v.toNat = if s.ck.isSome then 1 else 0) ∧
    (∀ c, s.ck = some c → s.hostReg .cklen = some c.length ∧ s.hostReg .ckcrc = some c.crc) ∧
    (s.ibuf.length < 2 ^ 32 → ∃ v, s.hostReg .ilen = some v ∧ v.toNat = s.ibuf.length) ∧
    (s.obuf.length < 2 ^ 32 → ∃ v, s.hostReg .olen = some v ∧ v.toNat = s.obuf.length)

/-- What a read returns goes to the host's answer and nothing of the block changes; H_READ_OBUF returns
all OLEN bytes of OBUF (20_memory.md R41). The answer is the model's own field (log entry 5). -/
def Obligations.ReadsReturnTheValueAndChangeNothing : Prop :=
  (∀ (s : State) (r : HostReg) (v : Word), s.hostReg r = some v →
    runAction (.read r) s = .next { s with answer := some (.word v) }) ∧
  (∀ s : State, runAction .readObuf s = .next { s with answer := some (.bytes s.obuf) })

/-- Reads that have no value: CKLEN and CKCRC while CK is empty fault; bytes of OBUF and IBUF at or above
the current length do not exist (10_state.md R24). That the read faults, of the two ways R24 leaves open, is
the model's choice (log entry 7). -/
def Obligations.ReadsWithoutAValueGiveNone : Prop :=
  ∀ s : State,
    (s.ck = none → runAction (.read .cklen) s = .fault (.readOfEmptyChunk .cklen) ∧
      runAction (.read .ckcrc) s = .fault (.readOfEmptyChunk .ckcrc)) ∧
    (∀ a, s.obuf.length ≤ a → Memory.read s.obuf a = none) ∧
    (∀ a, s.ibuf.length ≤ a → Memory.read s.ibuf a = none)

/-- A command that reads IBUF does not consume it: issued again at once it leaves the same state
(20_memory.md R36). The spec derives R36 from R23. -/
def Obligations.ReadingIbufDoesNotConsumeIt : Prop :=
  ∀ (s t : State) (i : Instr), ((∃ td, i = .tagFromText td) ∨ (∃ ta, i = .chunkNew ta) ∨ i = .chunkDecode) →
    exec i s = .next t → t.ibuf = s.ibuf ∧ exec i t = .next t

/-- The only stops: a fault exactly on a read of CKLEN or CKCRC while CK is empty (10_state.md R24), a
refusal exactly on an H_WRITE_IBUF of more than PMAX bytes (20_memory.md R42); no command stops. The fault
and the refusal are the model's forms of R24 and R42 (log entries 7 and 8). -/
def Obligations.StepStopsOnlyOnTheTwoHostActions : Prop :=
  ∀ s : State,
    ((∃ r, step s = .fault r) ↔
      s.ck = none ∧ ∃ rest, s.host = .read .cklen :: rest ∨ s.host = .read .ckcrc :: rest) ∧
    ((∃ r, step s = .refused r) ↔ ∃ b rest, s.host = .writeIbuf b :: rest ∧ Config.pmax < b.length)

/-! ### Whole-machine rules (10_state.md, 60_exceptions.md) -/

/-- The reset state meets the invariant (10_state.md R12, R14, R25). -/
def Obligations.ResetStateMeetsTheInvariants : Prop := State.reset.Inv

/-- Every step keeps the invariant, from every state that meets it: tag registers hold four letters, the
chunk register holds a chunk with its four invariants, the buffers fit, STATUS holds one of its eight
values, and the detail words are 0 after success (10_state.md R12, R14, R16, R17, R18). The spec derives
that the invariants of R12 and R14 hold in every reachable state. -/
def Obligations.EveryStepKeepsTheInvariants : Prop :=
  ∀ s t : State, s.Inv → step s = .next t → t.Inv

/-- The frame of every command (10_state.md R23): outside its destination and the three outcome words,
every register and every byte of both buffers are as before; no command writes IBUF. -/
def Obligations.EveryCommandChangesOnlyItsDestination : Prop :=
  ∀ (i : Instr) (s t : State), exec i s = .next t → SameExcept (destOf i) s t

/-- A command leaves the model's own two fields alone: the host's list of actions and its answer belong to
the host's actions (log entries 4 and 5). -/
def Obligations.CommandsLeaveTheHostsSideAlone : Prop :=
  ∀ (i : Instr) (s t : State), exec i s = .next t → t.host = s.host ∧ t.answer = s.answer

/-- Every command ends in a next state; an error leaves its destination empty, and success leaves both
detail words 0 (60_exceptions.md R121, R122, 70_reset_and_hazards.md R145). -/
def Obligations.ErrorsEmptyTheDestination : Prop :=
  ∀ (i : Instr) (s : State), ∃ t, exec i s = .next t ∧
    (t.status ≠ 0#32 → t.emptyAt (destOf i)) ∧ (t.status = 0#32 → t.errd0 = 0#32 ∧ t.errd1 = 0#32)

/-- Each outcome is one of the eight rows of 60_exceptions.md R120, raised only by the commands the table
names for it. -/
def Obligations.OutcomesComeOnlyFromTheirCommands : Prop :=
  ∀ (i : Instr) (s t : State), exec i s = .next t →
    t.status = 0x00#32 ∨
    (t.status = 0x01#32 ∧ i = .chunkDecode) ∨
    (t.status = 0x0A#32 ∧ ((∃ td imm, i = .tagFromBytes td imm) ∨ (∃ td, i = .tagFromText td) ∨ i = .chunkDecode)) ∨
    (t.status = 0x12#32 ∧ ∃ td, i = .tagFromText td) ∨
    (t.status = 0x03#32 ∧ i = .chunkDecode) ∨
    (t.status = 0x04#32 ∧ i = .chunkText) ∨
    (t.status = 0x05#32 ∧ hasSource i)

/-- No command's behaviour depends on RES, STATUS, ERRD0 or ERRD1 (10_state.md R20): from two states that
differ in these four only, the same command leaves the same tags, chunk, buffers and outcome, and the
same RES unless it is not its destination. -/
def Obligations.CommandsDoNotReadTheOutcomeRegisters : Prop :=
  ∀ (i : Instr) (s s' t : State), SameInputs s s' → exec i s = .next t →
    ∃ t', exec i s' = .next t' ∧ SameInputs t t' ∧ t'.status = t.status ∧ t'.errd0 = t.errd0 ∧
      t'.errd1 = t.errd1 ∧ (destOf i = .res → t'.res = t.res)

/-- IBUF is written by the host and by reset only (10_state.md R10, R23): a step that changes IBUF ran an
H_RESET or the H_WRITE_IBUF of just those bytes. -/
def Obligations.OnlyTheHostWritesIbuf : Prop :=
  ∀ s t : State, step s = .next t → t.ibuf ≠ s.ibuf →
    ∃ rest, s.host = .reset :: rest ∨ s.host = .writeIbuf t.ibuf :: rest

/-- An object ceases to exist only by a reset or by the error commit of a command that names its register
as destination (70_reset_and_hazards.md R140, 10_state.md R11, R13). -/
def Obligations.ObjectsCeaseOnlyByResetOrError : Prop :=
  ∀ (s t : State) (d : Dest), (d = .ck ∨ ∃ r, d = .tag r) → step s = .next t → ¬ s.emptyAt d → t.emptyAt d →
    ∃ rest, s.host = .reset :: rest ∨
      ∃ w i, s.host = .cmd w :: rest ∧ decode w = .ok i ∧ destOf i = d ∧ t.status ≠ 0#32

/-! ### Type tags (41_typetag.md) -/

/-- TAG.FROMBYTES (41_typetag.md R81): four letters make a tag; else NonAlphabetic with the index and value
of the first byte that is no letter, and an empty destination. -/
def Obligations.TagFromBytesConstructsOrRejects : Prop :=
  ∀ (td : TagReg) (imm : Word) (s : State),
    (AllLetters (be32Bytes imm.toNat).toList →
      Answers (.tagFromBytes td imm) s (.tag td) 0x00 0 0 (fun t => t.tag td = some (be32Bytes imm.toNat))) ∧
    (∀ k b, FirstNonLetter (be32Bytes imm.toNat).toList k b →
      Answers (.tagFromBytes td imm) s (.tag td) 0x0A k b.toNat (fun t => t.tag td = none))

/-- TAG.FROMTEXT (41_typetag.md R82): the letters of the whole text are checked before its length; the
order is normative. -/
def Obligations.TagFromTextChecksLettersThenLength : Prop :=
  ∀ (td : TagReg) (s : State),
    (∀ k b, FirstNonLetter s.ibuf k b →
      Answers (.tagFromText td) s (.tag td) 0x0A k b.toNat (fun t => t.tag td = none)) ∧
    (AllLetters s.ibuf → s.ibuf.length ≠ 4 →
      Answers (.tagFromText td) s (.tag td) 0x12 4 s.ibuf.length (fun t => t.tag td = none)) ∧
    (∀ c : Bytes4, AllLetters s.ibuf → s.ibuf = c.toList →
      Answers (.tagFromText td) s (.tag td) 0x00 0 0 (fun t => t.tag td = some c))

/-- The five queries (41_typetag.md R84 to R88): RES is the case of one byte; the polarity of TAG.ISSAFE is
the reverse; TAG.ISVALID answers as TAG.ISRESVALID. An empty register ends each with NoObject and RES 0. -/
def Obligations.PropertyQueriesAnswerTheCaseOfOneByte : Prop :=
  ∀ (ta : TagReg) (s : State),
    (∀ c : Bytes4, s.tag ta = some c →
      Answers (.tagIsCritical ta) s .res 0 0 0 (fun t => t.res = bit (Upper c.b0)) ∧
      Answers (.tagIsPublic ta) s .res 0 0 0 (fun t => t.res = bit (Upper c.b1)) ∧
      Answers (.tagIsResValid ta) s .res 0 0 0 (fun t => t.res = bit (Upper c.b2)) ∧
      Answers (.tagIsSafe ta) s .res 0 0 0 (fun t => t.res = bit (Lower c.b3)) ∧
      Answers (.tagIsValid ta) s .res 0 0 0 (fun t => t.res = bit (Upper c.b2))) ∧
    (s.tag ta = none →
      Answers (.tagIsCritical ta) s .res 5 0 (noOf ta) (fun t => t.res = 0#1) ∧
      Answers (.tagIsPublic ta) s .res 5 0 (noOf ta) (fun t => t.res = 0#1) ∧
      Answers (.tagIsResValid ta) s .res 5 0 (noOf ta) (fun t => t.res = 0#1) ∧
      Answers (.tagIsSafe ta) s .res 5 0 (noOf ta) (fun t => t.res = 0#1) ∧
      Answers (.tagIsValid ta) s .res 5 0 (noOf ta) (fun t => t.res = 0#1))

/-- In a state that meets the invariant each property is one bit of one byte: bit 5 clear for the first
three, bit 5 set for "safe to copy" (30_encoding.md R52). The spec derives the bit-5 form in R52 from the
two letter ranges. -/
def Obligations.PropertiesAreBitFiveOfTheirByte : Prop :=
  ∀ (ta : TagReg) (s : State) (c : Bytes4), s.Inv → s.tag ta = some c →
    Answers (.tagIsCritical ta) s .res 0 0 0 (fun t => t.res = bit (c.b0.getLsbD 5 = false)) ∧
    Answers (.tagIsPublic ta) s .res 0 0 0 (fun t => t.res = bit (c.b1.getLsbD 5 = false)) ∧
    Answers (.tagIsResValid ta) s .res 0 0 0 (fun t => t.res = bit (c.b2.getLsbD 5 = false)) ∧
    Answers (.tagIsSafe ta) s .res 0 0 0 (fun t => t.res = bit (c.b3.getLsbD 5 = true))

/-- TAG.BYTES and TAG.TEXT replace the whole of OBUF by the four bytes of the tag (41_typetag.md R89, R90);
an empty register ends each with NoObject and OBUF empty. -/
def Obligations.TagBytesAndTextCopyTheCode : Prop :=
  ∀ (ta : TagReg) (s : State),
    (∀ c : Bytes4, s.tag ta = some c →
      Answers (.tagBytes ta) s .obuf 0 0 0 (fun t => t.obuf = [c.b0, c.b1, c.b2, c.b3]) ∧
      Answers (.tagText ta) s .obuf 0 0 0 (fun t => t.obuf = [c.b0, c.b1, c.b2, c.b3])) ∧
    (s.tag ta = none →
      Answers (.tagBytes ta) s .obuf 5 0 (noOf ta) (fun t => t.obuf = []) ∧
      Answers (.tagText ta) s .obuf 5 0 (noOf ta) (fun t => t.obuf = []))

/-- TAG.EQ compares the four bytes; an empty operand ends it with NoObject, the first operand tested first
(41_typetag.md R91). -/
def Obligations.TagEqComparesTheBytes : Prop :=
  ∀ (ta tb : TagReg) (s : State),
    (∀ a b, s.tag ta = some a → s.tag tb = some b →
      Answers (.tagEq ta tb) s .res 0 0 0
        (fun t => t.res = bit (a.b0 = b.b0 ∧ a.b1 = b.b1 ∧ a.b2 = b.b2 ∧ a.b3 = b.b3))) ∧
    (s.tag ta = none → Answers (.tagEq ta tb) s .res 5 0 (noOf ta) (fun t => t.res = 0#1)) ∧
    (∀ a, s.tag ta = some a → s.tag tb = none →
      Answers (.tagEq ta tb) s .res 5 0 (noOf tb) (fun t => t.res = 0#1))

/-- A command that reads tag registers and finds one empty ends with NoObject(0, n), n the first such
register in the order it tests them, and its destination is emptied (41_typetag.md R92). -/
def Obligations.FirstEmptyTagOperandGivesNoObject : Prop :=
  ∀ (i : Instr) (s : State) (r : TagReg), (tagSources i).find? (fun q => (s.tag q).isNone) = some r →
    Answers i s (destOf i) 5 0 (noOf r) (fun t => t.emptyAt (destOf i))

/-- The rendered text of a tag, presented again as the input buffer, constructs an equal tag (41_typetag.md
R90, R82; 10_state.md R12). The spec derives this in R90 from R82 and R12. -/
def Obligations.TextOfATagConstructsItAgain : Prop :=
  ∀ (ta td : TagReg) (s t : State) (c : Bytes4), s.Inv → s.tag ta = some c →
    exec (.tagText ta) s = .next t →
    ∃ u v, runAction (.writeIbuf t.obuf) t = .next u ∧ exec (.tagFromText td) u = .next v ∧
      v.status = 0#32 ∧ v.tag td = some c

/-! ### Chunks (42_chunk.md) -/

/-- CHUNK.NEW frames the tag and the whole of IBUF, whose length always fits the 32-bit field
(42_chunk.md R100); an empty tag register is the only failure. -/
def Obligations.ChunkNewFramesTagAndIbuf : Prop :=
  ∀ (ta : TagReg) (s : State),
    (∀ ty, s.tag ta = some ty →
      Answers (.chunkNew ta) s .ck 0 0 0 (fun t => t.ck = some
        { length := BitVec.ofNat 32 s.ibuf.length, type := ty, payload := s.ibuf,
          crc := crc32 ([ty.b0, ty.b1, ty.b2, ty.b3] ++ s.ibuf) } ∧
        (s.ibuf.length ≤ Config.pmax → (BitVec.ofNat 32 s.ibuf.length).toNat = s.ibuf.length))) ∧
    (s.tag ta = none → Answers (.chunkNew ta) s .ck 5 0 (noOf ta) (fun t => t.ck = none))

/-- CHUNK.DECODE (42_chunk.md R101), clause by clause in wire order: the length field cut short; the type
field cut short; a type byte that is no letter; the payload cut short; the checksum field cut short; a
checksum that differs; and the record accepted, bytes after it ignored. -/
def Obligations.ChunkDecodeParsesTheRecord : Prop :=
  ∀ s : State,
    (s.ibuf.length < 4 →
      Answers .chunkDecode s .ck 0x01 4 s.ibuf.length (fun t => t.ck = none)) ∧
    (4 ≤ s.ibuf.length → s.ibuf.length < 8 →
      Answers .chunkDecode s .ck 0x01 4 (s.ibuf.length - 4) (fun t => t.ck = none)) ∧
    (∀ (len ty : Bytes4) (rest : List Byte), s.ibuf = len.toList ++ ty.toList ++ rest →
      (∀ k b, FirstNonLetter ty.toList k b →
        Answers .chunkDecode s .ck 0x0A k b.toNat (fun t => t.ck = none)) ∧
      (AllLetters ty.toList → rest.length < be32Nat len →
        Answers .chunkDecode s .ck 0x01 (be32Nat len) rest.length (fun t => t.ck = none)) ∧
      (AllLetters ty.toList → be32Nat len ≤ rest.length → rest.length < be32Nat len + 4 →
        Answers .chunkDecode s .ck 0x01 4 (rest.length - be32Nat len) (fun t => t.ck = none)) ∧
      (∀ (pay : List Byte) (stored : Bytes4) (tail : List Byte),
        AllLetters ty.toList → rest = pay ++ stored.toList ++ tail → pay.length = be32Nat len →
        ((crc32 (ty.toList ++ pay)).toNat ≠ be32Nat stored →
          Answers .chunkDecode s .ck 0x03 (crc32 (ty.toList ++ pay)).toNat (be32Nat stored)
            (fun t => t.ck = none)) ∧
        ((crc32 (ty.toList ++ pay)).toNat = be32Nat stored →
          Answers .chunkDecode s .ck 0x00 0 0 (fun t => t.ck = some
            { length := BitVec.ofNat 32 (be32Nat len), type := ty, payload := pay,
              crc := BitVec.ofNat 32 (be32Nat stored) }))))

/-- CHUNK.ENCODE emits length, type, payload and checksum, the integers big-endian, and nothing else
(42_chunk.md R102). -/
def Obligations.ChunkEncodeEmitsTheRecord : Prop :=
  ∀ s : State,
    (∀ c, s.ck = some c →
      Answers .chunkEncode s .obuf 0 0 0 (fun t =>
        t.obuf = (be32Bytes c.length.toNat).toList ++ c.type.toList ++ c.payload ++
          (be32Bytes c.crc.toNat).toList)) ∧
    (s.ck = none → Answers .chunkEncode s .obuf 5 1 0 (fun t => t.obuf = []))

/-- The size law (42_chunk.md R103): the length of the output, and which bytes stand where. The spec derives
the size law (R103) from R102 and R50. -/
def Obligations.EncodedRecordHasItsFieldsInPlace : Prop :=
  ∀ (s t : State) (c : Chunk), s.Inv → s.ck = some c → exec .chunkEncode s = .next t →
    t.obuf.length = 12 + c.length.toNat ∧ 12 ≤ t.obuf.length ∧ t.obuf.length ≤ Config.pmax + 12 ∧
    Memory.slice t.obuf 0 4 = (be32Bytes c.length.toNat).toList ∧
    Memory.slice t.obuf 4 4 = c.type.toList ∧
    Memory.slice t.obuf 8 c.length.toNat = c.payload ∧
    Memory.slice t.obuf (8 + c.length.toNat) 4 = (be32Bytes c.crc.toNat).toList

/-- CHUNK.TEXT copies a payload that is valid UTF-8 and rejects any other (42_chunk.md R104). Which payloads
are valid is R105's table (log entry 3). -/
def Obligations.ChunkTextCopiesValidText : Prop :=
  ∀ s : State,
    (∀ c, s.ck = some c → utf8Valid c.payload = true →
      Answers .chunkText s .obuf 0 0 0 (fun t => t.obuf = c.payload)) ∧
    (∀ c, s.ck = some c → utf8Valid c.payload = false →
      Answers .chunkText s .obuf 4 0 0 (fun t => t.obuf = [])) ∧
    (s.ck = none → Answers .chunkText s .obuf 5 1 0 (fun t => t.obuf = []))

/-- The scan accepts exactly the concatenations of sequences of the nine shapes (42_chunk.md R105; the
table is general knowledge there, log entry 3). -/
def Obligations.Utf8ScanAcceptsExactlyTheNineShapes : Prop :=
  ∀ p : List Byte,
    utf8Valid p = true ↔ ∃ parts : List (List Byte), (∀ q ∈ parts, Utf8Shape q) ∧ parts.flatten = p

/-- CHUNK.TYPE and CHUNK.PAYLOAD hand out copies of the chunk's type and payload (42_chunk.md R106, R107). -/
def Obligations.ChunkTypeAndPayloadAreHandedOut : Prop :=
  ∀ s : State,
    (∀ c td, s.ck = some c → Answers (.chunkType td) s (.tag td) 0 0 0 (fun t => t.tag td = some c.type)) ∧
    (∀ td, s.ck = none → Answers (.chunkType td) s (.tag td) 5 1 0 (fun t => t.tag td = none)) ∧
    (∀ c, s.ck = some c → Answers .chunkPayload s .obuf 0 0 0 (fun t => t.obuf = c.payload)) ∧
    (s.ck = none → Answers .chunkPayload s .obuf 5 1 0 (fun t => t.obuf = []))

/-- Round trip (42_chunk.md R109): CHUNK.ENCODE, the output presented as input, CHUNK.DECODE gives the same
chunk again wherever its record fits IBUF; in particular for a chunk just made from a tag and a payload. The
spec derives this law (R109) from R101, R102 and R14. -/
def Obligations.EncodeThenDecodeRestoresTheChunk : Prop :=
  (∀ (s : State) (c : Chunk), s.Inv → s.ck = some c → 12 + c.length.toNat ≤ Config.pmax →
    ∃ t u v, runAction (.cmd 0x2200000000000000#64) s = .next t ∧ runAction (.writeIbuf t.obuf) t = .next u ∧
      runAction (.cmd 0x2100000000000000#64) u = .next v ∧ v.status = 0#32 ∧ v.ck = some c) ∧
  (∀ (s : State) (ta : TagReg) (ty : Bytes4), s.Inv → s.tag ta = some ty →
    12 + s.ibuf.length ≤ Config.pmax →
    ∃ r t u v c, exec (.chunkNew ta) s = .next r ∧ r.ck = some c ∧ exec .chunkEncode r = .next t ∧
      runAction (.writeIbuf t.obuf) t = .next u ∧ exec .chunkDecode u = .next v ∧ v.status = 0#32 ∧
      v.ck = some c ∧ c.type = ty ∧ c.payload = s.ibuf)

/-- Reverse round trip (42_chunk.md R110): what decodes is reproduced byte for byte, less any bytes after
the record. The spec derives this law (R110) from R101 and R102. -/
def Obligations.DecodeThenEncodeReproducesTheRecord : Prop :=
  ∀ s t : State, exec .chunkDecode s = .next t → t.status = 0#32 →
    ∃ c u, t.ck = some c ∧ exec .chunkEncode t = .next u ∧ u.status = 0#32 ∧
      u.obuf = s.ibuf.take (12 + c.length.toNat)

/-- A single flipped bit of the type, payload or checksum of a record that decodes makes the decode fail
(42_chunk.md R111, 90_conflicts.md C1): ChecksumMismatch, or NonAlphabetic where a type byte is no letter
any more. The spec derives this law (R111) from R101 and R79. -/
def Obligations.FlippedTypePayloadOrChecksumBitIsCaught : Prop :=
  ∀ (s : State) (b : List Byte) (len : Nat) (ty : Bytes4) (pay : List Byte) (o k : Nat),
    GoodRecord b len ty pay → k < 8 → o < 12 + len → s.ibuf = flipBit b o k →
    (8 ≤ o → ∃ t, exec .chunkDecode s = .next t ∧ t.status = 0x03#32 ∧ t.ck = none) ∧
    (4 ≤ o → o < 8 → ∀ v, s.ibuf[o]? = some v →
      (Letter v → ∃ t, exec .chunkDecode s = .next t ∧ t.status = 0x03#32 ∧ t.ck = none) ∧
      (¬ Letter v → Answers .chunkDecode s .ck 0x0A (o - 4) v.toNat (fun t => t.ck = none)))

/-- A single flipped bit of the length field of a record that decodes (42_chunk.md R111, 90_conflicts.md C3,
C8). A length that grows is Truncated, in the checksum field where it grows by 1, 2 or 4, else in the
payload. With a length that shrinks to L' the window moves: the four bytes at offset 8 + L' are read as the
stored checksum, and the decode succeeds with the first L' bytes as payload where they equal the CRC of
the shorter span, else it ends with ChecksumMismatch and both numbers. The spec derives this law (R111)
from R101 and R79. -/
def Obligations.FlippedLengthBitMovesTheWindow : Prop :=
  ∀ (s : State) (b : List Byte) (len : Nat) (ty : Bytes4) (pay : List Byte) (o k : Nat),
    GoodRecord b len ty pay → k < 8 → o < 4 → s.ibuf = flipBit b o k →
    (len.testBit (8 * (3 - o) + k) = false →
      (2 ^ (8 * (3 - o) + k) ≤ 4 →
        Answers .chunkDecode s .ck 0x01 4 (4 - 2 ^ (8 * (3 - o) + k)) (fun t => t.ck = none)) ∧
      (4 < 2 ^ (8 * (3 - o) + k) →
        Answers .chunkDecode s .ck 0x01 (len + 2 ^ (8 * (3 - o) + k)) (len + 4) (fun t => t.ck = none))) ∧
    (len.testBit (8 * (3 - o) + k) = true →
      ∃ stored : Bytes4,
        Memory.slice s.ibuf (8 + (len - 2 ^ (8 * (3 - o) + k))) 4 = stored.toList ∧
        ((crc32 (ty.toList ++ pay.take (len - 2 ^ (8 * (3 - o) + k)))).toNat = be32Nat stored →
          Answers .chunkDecode s .ck 0x00 0 0 (fun t => t.ck = some
            { length := BitVec.ofNat 32 (len - 2 ^ (8 * (3 - o) + k)), type := ty,
              payload := pay.take (len - 2 ^ (8 * (3 - o) + k)),
              crc := BitVec.ofNat 32 (be32Nat stored) })) ∧
        ((crc32 (ty.toList ++ pay.take (len - 2 ^ (8 * (3 - o) + k)))).toNat ≠ be32Nat stored →
          Answers .chunkDecode s .ck 0x03
            (crc32 (ty.toList ++ pay.take (len - 2 ^ (8 * (3 - o) + k)))).toNat (be32Nat stored)
            (fun t => t.ck = none)))

/-! ### The CRC-32 unit (40_crc32.md) -/

/-- The byte step equals its bit-serial form (40_crc32.md R72). The spec derives the equality of the two
forms in R72. -/
def Obligations.CrcByteEqualsTheBitSerialForm : Prop :=
  ∀ (c : Word) (b : Byte), crcByte c b = crcSerial c b

/-- The checksum is that of the reflected parameter set (40_crc32.md R70): the non-reflected algorithm with
the polynomial 0x04C11DB7, over bytes taken least significant bit first, its register read out bit-reversed,
with initial value and final XOR 0xFFFFFFFF. The reading of "reflected" is the spec's (R70). -/
def Obligations.CrcIsTheReflectedParameterSet : Prop :=
  ∀ s : List Byte, crc32 s = (s.foldl crcLeftByte 0xFFFFFFFF#32).reverse ^^^ 0xFFFFFFFF#32

/-- The table form of the byte step (40_crc32.md R74), with TAB[k] = crcByte(0, k). The spec derives the
table form (R74) from R72. -/
def Obligations.CrcByteEqualsTheTableForm : Prop :=
  ∀ (c : Word) (b : Byte),
    crcByte c b = crcByte 0#32 (BitVec.ofNat 8 (field (c ^^^ b.setWidth 32).toNat 7 0)) ^^^ (c >>> 8)

/-- Continuation (40_crc32.md R76): one register may run through the type and then the payload. The spec
derives R76 from R73. -/
def Obligations.CrcRunsOnThroughConcatenation : Prop :=
  (∀ c : Word, crcRun c [] = c) ∧
  (∀ (c : Word) (s : List Byte) (b : Byte), crcRun c (s ++ [b]) = crcByte (crcRun c s) b) ∧
  (∀ s : List Byte, crc32 s = crcRun 0xFFFFFFFF#32 s ^^^ 0xFFFFFFFF#32) ∧
  (∀ (c : Word) (s t : List Byte), crcRun c (s ++ t) = crcRun (crcRun c s) t)

/-- Single-bit sensitivity (40_crc32.md R79): two sequences of one length that differ in exactly one bit have
different checksums. -/
def Obligations.OneFlippedBitChangesTheCrc : Prop :=
  ∀ (s : List Byte) (i k : Nat), i < s.length → k < 8 → crc32 (flipBit s i k) ≠ crc32 s
end

