-- ==== Sys2Proof/Laws/Memory.lean ====
section
/-! SUPPORT. The form of a buffer: as cells its offsets rise strictly and equal cells mean equal buffers;
every operation that writes a buffer keeps it within its capacity (20_memory.md R30). -/

namespace Sys2Proof.Machine

theorem pmax_ge : 54 ≤ Config.pmax := Nat.le_add_left 54 _

theorem pmax_lt : Config.pmax < 4294967296 := by
  have := Config.pmaxAbove54.isLt
  unfold Config.pmax
  omega

/-- The offsets of a buffer are 0, 1, 2, …: strictly rising, none twice. -/
theorem Memory.cells_offsets (m : Memory) : (Memory.cells m).map Prod.fst = List.range m.length := by
  simp [Memory.cells, Function.comp_def, List.zipIdx_map_snd, List.range_eq_range']

theorem Memory.cells_strictly_rising (m : Memory) :
    ((Memory.cells m).map Prod.fst).Pairwise (· < ·) := by
  rw [Memory.cells_offsets]
  exact List.pairwise_lt_range

/-- Equal cells are equal buffers. -/
theorem Memory.cells_injective {m n : Memory} (h : Memory.cells m = Memory.cells n) : m = n := by
  have := congrArg (List.map Prod.snd) h
  simpa [Memory.cells, Function.comp_def, List.zipIdx_map_fst] using this

/-- Equal lengths and equal bytes are equal buffers. -/
theorem Memory.eq_of_reads {m n : Memory} (h : ∀ a, Memory.read m a = Memory.read n a) : m = n :=
  List.ext_getElem? h

theorem Memory.wf_nil (capacity : Nat) : Memory.wf capacity [] = true := by simp [Memory.wf]

theorem Memory.wf_iff {capacity : Nat} {m : Memory} : Memory.wf capacity m = true ↔ m.length ≤ capacity := by
  simp [Memory.wf]

/-- The bytes read from a buffer are no more than the buffer holds. -/
theorem Memory.slice_length_le (m : Memory) (a n : Nat) : (Memory.slice m a n).length ≤ m.length := by
  simp only [Memory.slice, List.length_take, List.length_drop]
  omega

theorem Memory.slice_length {m : Memory} {a n : Nat} (h : a + n ≤ m.length) :
    (Memory.slice m a n).length = n := by
  simp only [Memory.slice, List.length_take, List.length_drop]
  omega

/-- The wire record of a chunk is 12 bytes longer than its payload. -/
theorem Chunk.record_length (c : Chunk) : c.record.length = 12 + c.payload.length := by
  simp [Chunk.record, Bytes4.toList]
  omega

/-- A chunk within PMAX has a record within the capacity of OBUF. -/
theorem Chunk.record_fits {c : Chunk} (h : Memory.wf Config.pmax c.payload = true) :
    Memory.wf (Config.pmax + 12) c.record = true := by
  rw [Memory.wf_iff] at h ⊢
  rw [Chunk.record_length]
  omega

/-- What fits IBUF fits OBUF. -/
theorem Memory.wf_obuf_of_ibuf {m : Memory} (h : Memory.wf Config.pmax m = true) :
    Memory.wf (Config.pmax + 12) m = true := by
  rw [Memory.wf_iff] at h ⊢
  omega

/-- The four bytes of a tag fit OBUF. -/
theorem Memory.wf_bytes4 (c : Bytes4) : Memory.wf (Config.pmax + 12) c.toList = true := by
  rw [Memory.wf_iff]
  simp [Bytes4.toList]

/-- `H_WRITE_IBUF` keeps IBUF within its capacity. -/
theorem runWriteIbuf_keeps_ibuf_wf {b : Memory} {s t : State} (h : runWriteIbuf b s = .next t) :
    Memory.wf Config.pmax t.ibuf = true := by
  unfold runWriteIbuf at h
  split at h
  · rename_i hb
    cases h
    exact Memory.wf_iff.mpr hb
  · cases h

theorem reset_ibuf_wf : Memory.wf Config.pmax State.reset.ibuf = true := Memory.wf_nil _

theorem reset_obuf_wf : Memory.wf (Config.pmax + 12) State.reset.obuf = true := Memory.wf_nil _

end Sys2Proof.Machine
end

