-- ==== Sys2Proof/Laws/Flags.lean ====
section
/-! SUPPORT. The STATUS words of the outcomes, and the letter tests as arithmetic on byte values. -/

namespace Sys2Proof.Machine

@[simp] theorem statusWord_ok : statusWord 0#3 0#2 = 0#32 := rfl

/-! The STATUS word of each error (10_state.md R16, 60_exceptions.md R120). -/

@[simp] theorem statusWord_truncated (m n : Nat) :
    statusWord (Err.truncated m n).code (Err.truncated m n).sub = 0x01#32 := by
  simp only [Err.code, Err.sub]
  decide

@[simp] theorem statusWord_nonAlphabetic (i : Nat) (b : Byte) :
    statusWord (Err.nonAlphabetic i b).code (Err.nonAlphabetic i b).sub = 0x0A#32 := by
  simp only [Err.code, Err.sub]
  decide

@[simp] theorem statusWord_wrongLength (m n : Nat) :
    statusWord (Err.wrongLength m n).code (Err.wrongLength m n).sub = 0x12#32 := by
  simp only [Err.code, Err.sub]
  decide

@[simp] theorem statusWord_checksumMismatch (c d : Word) :
    statusWord (Err.checksumMismatch c d).code (Err.checksumMismatch c d).sub = 0x03#32 := by
  simp only [Err.code, Err.sub]
  decide

@[simp] theorem statusWord_nonTextPayload :
    statusWord Err.nonTextPayload.code Err.nonTextPayload.sub = 0x04#32 := by
  simp only [Err.code, Err.sub]
  decide

@[simp] theorem statusWord_noTag (r : TagReg) :
    statusWord (Err.noTag r).code (Err.noTag r).sub = 0x05#32 := by
  simp only [Err.code, Err.sub]
  decide

@[simp] theorem statusWord_noChunk :
    statusWord Err.noChunk.code Err.noChunk.sub = 0x05#32 := by
  simp only [Err.code, Err.sub]
  decide

@[simp] theorem statusWord_illegalCommand (w : CmdWord) :
    statusWord (Err.illegalCommand w).code (Err.illegalCommand w).sub = 0x06#32 := by
  simp only [Err.code, Err.sub]
  decide

/-- Every error has one of the eight STATUS words. -/
theorem statusWord_mem (e : Err) : statusWord e.code e.sub ∈ statusValues := by
  cases e <;> (simp only [Err.code, Err.sub]; decide)

/-- No error has the STATUS word of success. -/
theorem statusWord_ne_zero (e : Err) : statusWord e.code e.sub ≠ 0#32 := by
  cases e <;> (simp only [Err.code, Err.sub]; decide)

theorem isUpper_iff (b : Byte) : isUpper b = true ↔ 0x41 ≤ b.toNat ∧ b.toNat ≤ 0x5A := by
  simp [isUpper, BitVec.le_def]

theorem isLower_iff (b : Byte) : isLower b = true ↔ 0x61 ≤ b.toNat ∧ b.toNat ≤ 0x7A := by
  simp [isLower, BitVec.le_def]

theorem isAlpha_iff (b : Byte) :
    isAlpha b = true ↔ (0x41 ≤ b.toNat ∧ b.toNat ≤ 0x5A) ∨ (0x61 ≤ b.toNat ∧ b.toNat ≤ 0x7A) := by
  simp [isAlpha, isUpper_iff, isLower_iff]

end Sys2Proof.Machine
end

