-- ==== Sys2Proof/Laws/State.lean ====
section
/-! SUPPORT. One lemma per field per update of the state, so that no later proof unfolds a record
update. -/

namespace Sys2Proof.Machine

variable (s : State)

/-! ### tag and setTag -/

@[simp] theorem State.tag_t0 : s.tag .t0 = s.t0 := rfl

@[simp] theorem State.tag_t1 : s.tag .t1 = s.t1 := rfl

@[simp] theorem State.tag_t2 : s.tag .t2 = s.t2 := rfl

@[simp] theorem State.tag_t3 : s.tag .t3 = s.t3 := rfl

@[simp] theorem State.setTag_tag_same (r : TagReg) (v : Option Bytes4) : (s.setTag r v).tag r = v := by
  cases r <;> rfl

theorem State.setTag_tag_other {r q : TagReg} (v : Option Bytes4) (h : q ≠ r) :
    (s.setTag r v).tag q = s.tag q := by
  cases r <;> cases q <;> first | rfl | exact absurd rfl h

@[simp] theorem State.setTag_ck (r : TagReg) (v : Option Bytes4) : (s.setTag r v).ck = s.ck := by
  cases r <;> rfl

@[simp] theorem State.setTag_res (r : TagReg) (v : Option Bytes4) : (s.setTag r v).res = s.res := by
  cases r <;> rfl

@[simp] theorem State.setTag_status (r : TagReg) (v : Option Bytes4) : (s.setTag r v).status = s.status := by
  cases r <;> rfl

@[simp] theorem State.setTag_errd0 (r : TagReg) (v : Option Bytes4) : (s.setTag r v).errd0 = s.errd0 := by
  cases r <;> rfl

@[simp] theorem State.setTag_errd1 (r : TagReg) (v : Option Bytes4) : (s.setTag r v).errd1 = s.errd1 := by
  cases r <;> rfl

@[simp] theorem State.setTag_ibuf (r : TagReg) (v : Option Bytes4) : (s.setTag r v).ibuf = s.ibuf := by
  cases r <;> rfl

@[simp] theorem State.setTag_obuf (r : TagReg) (v : Option Bytes4) : (s.setTag r v).obuf = s.obuf := by
  cases r <;> rfl

@[simp] theorem State.setTag_host (r : TagReg) (v : Option Bytes4) : (s.setTag r v).host = s.host := by
  cases r <;> rfl

@[simp] theorem State.setTag_answer (r : TagReg) (v : Option Bytes4) : (s.setTag r v).answer = s.answer := by
  cases r <;> rfl

/-! ### setChunk -/

@[simp] theorem State.setChunk_t0 (c : Chunk) : (s.setChunk c).t0 = s.t0 := rfl

@[simp] theorem State.setChunk_t1 (c : Chunk) : (s.setChunk c).t1 = s.t1 := rfl

@[simp] theorem State.setChunk_t2 (c : Chunk) : (s.setChunk c).t2 = s.t2 := rfl

@[simp] theorem State.setChunk_t3 (c : Chunk) : (s.setChunk c).t3 = s.t3 := rfl

@[simp] theorem State.setChunk_ck (c : Chunk) : (s.setChunk c).ck = some c := rfl

@[simp] theorem State.setChunk_res (c : Chunk) : (s.setChunk c).res = s.res := rfl

@[simp] theorem State.setChunk_status (c : Chunk) : (s.setChunk c).status = s.status := rfl

@[simp] theorem State.setChunk_errd0 (c : Chunk) : (s.setChunk c).errd0 = s.errd0 := rfl

@[simp] theorem State.setChunk_errd1 (c : Chunk) : (s.setChunk c).errd1 = s.errd1 := rfl

@[simp] theorem State.setChunk_ibuf (c : Chunk) : (s.setChunk c).ibuf = s.ibuf := rfl

@[simp] theorem State.setChunk_obuf (c : Chunk) : (s.setChunk c).obuf = s.obuf := rfl

@[simp] theorem State.setChunk_host (c : Chunk) : (s.setChunk c).host = s.host := rfl

@[simp] theorem State.setChunk_answer (c : Chunk) : (s.setChunk c).answer = s.answer := rfl

@[simp] theorem State.setChunk_tag (c : Chunk) (r : TagReg) : (s.setChunk c).tag r = s.tag r := by
  cases r <;> rfl

/-! ### setObuf -/

@[simp] theorem State.setObuf_t0 (m : Memory) : (s.setObuf m).t0 = s.t0 := rfl

@[simp] theorem State.setObuf_t1 (m : Memory) : (s.setObuf m).t1 = s.t1 := rfl

@[simp] theorem State.setObuf_t2 (m : Memory) : (s.setObuf m).t2 = s.t2 := rfl

@[simp] theorem State.setObuf_t3 (m : Memory) : (s.setObuf m).t3 = s.t3 := rfl

@[simp] theorem State.setObuf_ck (m : Memory) : (s.setObuf m).ck = s.ck := rfl

@[simp] theorem State.setObuf_res (m : Memory) : (s.setObuf m).res = s.res := rfl

@[simp] theorem State.setObuf_status (m : Memory) : (s.setObuf m).status = s.status := rfl

@[simp] theorem State.setObuf_errd0 (m : Memory) : (s.setObuf m).errd0 = s.errd0 := rfl

@[simp] theorem State.setObuf_errd1 (m : Memory) : (s.setObuf m).errd1 = s.errd1 := rfl

@[simp] theorem State.setObuf_ibuf (m : Memory) : (s.setObuf m).ibuf = s.ibuf := rfl

@[simp] theorem State.setObuf_obuf (m : Memory) : (s.setObuf m).obuf = m := rfl

@[simp] theorem State.setObuf_host (m : Memory) : (s.setObuf m).host = s.host := rfl

@[simp] theorem State.setObuf_answer (m : Memory) : (s.setObuf m).answer = s.answer := rfl

@[simp] theorem State.setObuf_tag (m : Memory) (r : TagReg) : (s.setObuf m).tag r = s.tag r := by
  cases r <;> rfl

/-! ### setRes -/

@[simp] theorem State.setRes_t0 (b : Bool) : (s.setRes b).t0 = s.t0 := rfl

@[simp] theorem State.setRes_t1 (b : Bool) : (s.setRes b).t1 = s.t1 := rfl

@[simp] theorem State.setRes_t2 (b : Bool) : (s.setRes b).t2 = s.t2 := rfl

@[simp] theorem State.setRes_t3 (b : Bool) : (s.setRes b).t3 = s.t3 := rfl

@[simp] theorem State.setRes_ck (b : Bool) : (s.setRes b).ck = s.ck := rfl

@[simp] theorem State.setRes_res (b : Bool) : (s.setRes b).res = BitVec.ofBool b := rfl

@[simp] theorem State.setRes_status (b : Bool) : (s.setRes b).status = s.status := rfl

@[simp] theorem State.setRes_errd0 (b : Bool) : (s.setRes b).errd0 = s.errd0 := rfl

@[simp] theorem State.setRes_errd1 (b : Bool) : (s.setRes b).errd1 = s.errd1 := rfl

@[simp] theorem State.setRes_ibuf (b : Bool) : (s.setRes b).ibuf = s.ibuf := rfl

@[simp] theorem State.setRes_obuf (b : Bool) : (s.setRes b).obuf = s.obuf := rfl

@[simp] theorem State.setRes_host (b : Bool) : (s.setRes b).host = s.host := rfl

@[simp] theorem State.setRes_answer (b : Bool) : (s.setRes b).answer = s.answer := rfl

@[simp] theorem State.setRes_tag (b : Bool) (r : TagReg) : (s.setRes b).tag r = s.tag r := by
  cases r <;> rfl

/-! ### setOutcome -/

@[simp] theorem State.setOutcome_t0 (st d0 d1 : Word) : (s.setOutcome st d0 d1).t0 = s.t0 := rfl

@[simp] theorem State.setOutcome_t1 (st d0 d1 : Word) : (s.setOutcome st d0 d1).t1 = s.t1 := rfl

@[simp] theorem State.setOutcome_t2 (st d0 d1 : Word) : (s.setOutcome st d0 d1).t2 = s.t2 := rfl

@[simp] theorem State.setOutcome_t3 (st d0 d1 : Word) : (s.setOutcome st d0 d1).t3 = s.t3 := rfl

@[simp] theorem State.setOutcome_ck (st d0 d1 : Word) : (s.setOutcome st d0 d1).ck = s.ck := rfl

@[simp] theorem State.setOutcome_res (st d0 d1 : Word) : (s.setOutcome st d0 d1).res = s.res := rfl

@[simp] theorem State.setOutcome_status (st d0 d1 : Word) : (s.setOutcome st d0 d1).status = st := rfl

@[simp] theorem State.setOutcome_errd0 (st d0 d1 : Word) : (s.setOutcome st d0 d1).errd0 = d0 := rfl

@[simp] theorem State.setOutcome_errd1 (st d0 d1 : Word) : (s.setOutcome st d0 d1).errd1 = d1 := rfl

@[simp] theorem State.setOutcome_ibuf (st d0 d1 : Word) : (s.setOutcome st d0 d1).ibuf = s.ibuf := rfl

@[simp] theorem State.setOutcome_obuf (st d0 d1 : Word) : (s.setOutcome st d0 d1).obuf = s.obuf := rfl

@[simp] theorem State.setOutcome_host (st d0 d1 : Word) : (s.setOutcome st d0 d1).host = s.host := rfl

@[simp] theorem State.setOutcome_answer (st d0 d1 : Word) : (s.setOutcome st d0 d1).answer = s.answer := rfl

@[simp] theorem State.setOutcome_tag (st d0 d1 : Word) (r : TagReg) : (s.setOutcome st d0 d1).tag r = s.tag r := by
  cases r <;> rfl

/-! ### ok -/

@[simp] theorem State.ok_t0 : (s.ok).t0 = s.t0 := rfl

@[simp] theorem State.ok_t1 : (s.ok).t1 = s.t1 := rfl

@[simp] theorem State.ok_t2 : (s.ok).t2 = s.t2 := rfl

@[simp] theorem State.ok_t3 : (s.ok).t3 = s.t3 := rfl

@[simp] theorem State.ok_ck : (s.ok).ck = s.ck := rfl

@[simp] theorem State.ok_res : (s.ok).res = s.res := rfl

@[simp] theorem State.ok_status : (s.ok).status = 0#32 := rfl

@[simp] theorem State.ok_errd0 : (s.ok).errd0 = 0#32 := rfl

@[simp] theorem State.ok_errd1 : (s.ok).errd1 = 0#32 := rfl

@[simp] theorem State.ok_ibuf : (s.ok).ibuf = s.ibuf := rfl

@[simp] theorem State.ok_obuf : (s.ok).obuf = s.obuf := rfl

@[simp] theorem State.ok_host : (s.ok).host = s.host := rfl

@[simp] theorem State.ok_answer : (s.ok).answer = s.answer := rfl

@[simp] theorem State.ok_tag (r : TagReg) : (s.ok).tag r = s.tag r := by
  cases r <;> rfl

/-! ### take -/

@[simp] theorem State.take_t0 (rest : List HostAction) : (s.take rest).t0 = s.t0 := rfl

@[simp] theorem State.take_t1 (rest : List HostAction) : (s.take rest).t1 = s.t1 := rfl

@[simp] theorem State.take_t2 (rest : List HostAction) : (s.take rest).t2 = s.t2 := rfl

@[simp] theorem State.take_t3 (rest : List HostAction) : (s.take rest).t3 = s.t3 := rfl

@[simp] theorem State.take_ck (rest : List HostAction) : (s.take rest).ck = s.ck := rfl

@[simp] theorem State.take_res (rest : List HostAction) : (s.take rest).res = s.res := rfl

@[simp] theorem State.take_status (rest : List HostAction) : (s.take rest).status = s.status := rfl

@[simp] theorem State.take_errd0 (rest : List HostAction) : (s.take rest).errd0 = s.errd0 := rfl

@[simp] theorem State.take_errd1 (rest : List HostAction) : (s.take rest).errd1 = s.errd1 := rfl

@[simp] theorem State.take_ibuf (rest : List HostAction) : (s.take rest).ibuf = s.ibuf := rfl

@[simp] theorem State.take_obuf (rest : List HostAction) : (s.take rest).obuf = s.obuf := rfl

@[simp] theorem State.take_host (rest : List HostAction) : (s.take rest).host = rest := rfl

@[simp] theorem State.take_answer (rest : List HostAction) : (s.take rest).answer = none := rfl

@[simp] theorem State.take_tag (rest : List HostAction) (r : TagReg) : (s.take rest).tag r = s.tag r := by
  cases r <;> rfl

/-! ### raise -/

@[simp] theorem State.raise_status (d : Dest) (e : Err) : (s.raise d e).status = statusWord e.code e.sub := rfl

@[simp] theorem State.raise_errd0 (d : Dest) (e : Err) : (s.raise d e).errd0 = e.errd0 := rfl

@[simp] theorem State.raise_errd1 (d : Dest) (e : Err) : (s.raise d e).errd1 = e.errd1 := rfl

@[simp] theorem State.raise_ibuf (d : Dest) (e : Err) : (s.raise d e).ibuf = s.ibuf := by
  rcases d with r | _ | _ | _ | _ <;> first | rfl | (cases r <;> rfl)

@[simp] theorem State.raise_host (d : Dest) (e : Err) : (s.raise d e).host = s.host := by
  rcases d with r | _ | _ | _ | _ <;> first | rfl | (cases r <;> rfl)

@[simp] theorem State.raise_answer (d : Dest) (e : Err) : (s.raise d e).answer = s.answer := by
  rcases d with r | _ | _ | _ | _ <;> first | rfl | (cases r <;> rfl)

/-- The error commit leaves a tag register alone that is not its destination. -/
theorem State.raise_tag_other {d : Dest} {r : TagReg} (e : Err) (h : d ≠ .tag r) :
    (s.raise d e).tag r = s.tag r := by
  rcases d with q | _ | _ | _ | _
  · exact State.setTag_tag_other s none (fun hrq => h (by rw [hrq]))
  all_goals cases r <;> rfl

/-- The error commit leaves CK alone when it is not the destination. -/
theorem State.raise_ck_other {d : Dest} (e : Err) (h : d ≠ .ck) : (s.raise d e).ck = s.ck := by
  rcases d with q | _ | _ | _ | _
  · cases q <;> rfl
  · exact absurd rfl h
  all_goals rfl

/-- The error commit leaves OBUF alone when it is not the destination. -/
theorem State.raise_obuf_other {d : Dest} (e : Err) (h : d ≠ .obuf) : (s.raise d e).obuf = s.obuf := by
  rcases d with q | _ | _ | _ | _
  · cases q <;> rfl
  · rfl
  · exact absurd rfl h
  all_goals rfl

/-- The error commit leaves RES alone when it is not the destination. -/
theorem State.raise_res_other {d : Dest} (e : Err) (h : d ≠ .res) : (s.raise d e).res = s.res := by
  rcases d with q | _ | _ | _ | _
  · cases q <;> rfl
  · rfl
  · rfl
  · exact absurd rfl h
  · rfl

end Sys2Proof.Machine
end

