-- ==== Sys2Proof/Laws/Operands.lean ====
section
/-! SUPPORT. What each operand form does: one lemma per form. -/

namespace Sys2Proof.Machine

/-- Bit `i` of the word of four bytes, byte by byte (20_memory.md R31). -/
theorem be32_getLsbD (c : Bytes4) (i : Nat) :
    (be32 c).getLsbD i =
      if i < 8 then c.b3.getLsbD i
      else if i < 16 then c.b2.getLsbD (i - 8)
      else if i < 24 then c.b1.getLsbD (i - 16)
      else c.b0.getLsbD (i - 24) := by
  simp only [be32, BitVec.getLsbD_append]
  split_ifs <;> first | omega | (congr 1; try omega)

/-- Four bytes are recovered from their word. -/
@[simp] theorem be32bytes_be32 (c : Bytes4) : be32bytes (be32 c) = c := by
  have field (b : Byte) (a : Nat) (h : ∀ i, i < 8 → (be32 c).getLsbD (a + i) = b.getLsbD i) :
      (be32 c).extractLsb' a 8 = b := by
    apply BitVec.eq_of_getLsbD_eq
    intro i hi
    rw [BitVec.getLsbD_extractLsb', h i hi]
    simp [hi]
  obtain ⟨a, b, d, e⟩ := c
  simp only [be32bytes, Bytes4.mk.injEq]
  refine ⟨field a 24 ?_, field b 16 ?_, field d 8 ?_, field e 0 ?_⟩ <;>
    (intro i hi; rw [be32_getLsbD]; split_ifs <;> first | omega | (congr 1; try omega))

/-- A word is recovered from its four bytes. -/
@[simp] theorem be32_be32bytes (v : Word) : be32 (be32bytes v) = v := by
  apply BitVec.eq_of_getLsbD_eq
  intro i hi
  rw [be32_getLsbD]
  simp only [be32bytes, BitVec.getLsbD_extractLsb']
  split_ifs with h0 h1 h2
  · simp [h0]
  · rw [decide_eq_true (by omega), show 8 + (i - 8) = i by omega, Bool.true_and]
  · rw [decide_eq_true (by omega), show 16 + (i - 16) = i by omega, Bool.true_and]
  · rw [decide_eq_true (by omega), show 24 + (i - 24) = i by omega, Bool.true_and]

@[simp] theorem Bytes4.toList_length (c : Bytes4) : c.toList.length = 4 := rfl

@[simp] theorem bytes4_toList (c : Bytes4) : bytes4? c.toList = some c := rfl

/-- `bytes4?` answers exactly on sequences of four bytes. -/
theorem bytes4_eq_some {l : List Byte} {c : Bytes4} : bytes4? l = some c ↔ l = c.toList := by
  constructor
  · intro h
    unfold bytes4? at h
    split at h
    · cases h; rfl
    · cases h
  · rintro rfl; rfl

theorem bytes4_eq_none {l : List Byte} : bytes4? l = none ↔ l.length ≠ 4 := by
  match l with
  | [] => simp [bytes4?]
  | [_] => simp [bytes4?]
  | [_, _] => simp [bytes4?]
  | [_, _, _] => simp [bytes4?]
  | [_, _, _, _] => simp [bytes4?]
  | _ :: _ :: _ :: _ :: _ :: _ => simp [bytes4?]

/-- A four-byte field is missing exactly where fewer than four bytes remain. -/
theorem field4_eq_none {m : Memory} {a : Nat} : Memory.field4 m a = none ↔ m.length - a < 4 := by
  simp only [Memory.field4, bytes4_eq_none, Memory.slice, List.length_take, List.length_drop]
  omega

/-- Two equal words have the same four bytes. -/
theorem be32_injective {c d : Bytes4} (h : be32 c = be32 d) : c = d := by
  rw [← be32bytes_be32 c, h, be32bytes_be32]

/-- The scan finds nothing exactly in a sequence of letters. -/
theorem firstNonAlphaFrom_eq_none {l : List Byte} {k : Nat} :
    firstNonAlphaFrom k l = none ↔ ∀ b ∈ l, isAlpha b = true := by
  induction l generalizing k with
  | nil => simp [firstNonAlphaFrom]
  | cons b rest ih =>
    by_cases hb : isAlpha b = true
    · simp [firstNonAlphaFrom, hb, ih]
    · simp [firstNonAlphaFrom, hb]

theorem firstNonAlpha_eq_none {l : List Byte} :
    firstNonAlpha l = none ↔ ∀ b ∈ l, isAlpha b = true := firstNonAlphaFrom_eq_none

/-- The scan finds the byte with the least index among those that are no letters. -/
theorem firstNonAlphaFrom_eq_some {l : List Byte} {k i : Nat} {b : Byte} :
    firstNonAlphaFrom k l = some (i, b) ↔
      k ≤ i ∧ l[i - k]? = some b ∧ isAlpha b = false ∧ ∀ c ∈ l.take (i - k), isAlpha c = true := by
  induction l generalizing k with
  | nil => simp [firstNonAlphaFrom]
  | cons a rest ih =>
    by_cases ha : isAlpha a = true
    · simp only [firstNonAlphaFrom, ha, if_true, ih]
      constructor
      · rintro ⟨hk, hget, hb, hall⟩
        obtain ⟨j, rfl⟩ : ∃ j, i = k + 1 + j := ⟨i - (k + 1), by omega⟩
        rw [show k + 1 + j - (k + 1) = j by omega] at hget hall
        rw [show k + 1 + j - k = j + 1 by omega]
        exact ⟨by omega, by simpa using hget, hb, by simpa [ha] using hall⟩
      · rintro ⟨hk, hget, hb, hall⟩
        rcases Nat.eq_or_lt_of_le hk with rfl | hlt
        · simp at hget
          rw [hget, hb] at ha
          cases ha
        · obtain ⟨j, rfl⟩ : ∃ j, i = k + 1 + j := ⟨i - (k + 1), by omega⟩
          rw [show k + 1 + j - k = j + 1 by omega] at hget hall
          rw [show k + 1 + j - (k + 1) = j by omega]
          exact ⟨by omega, by simpa using hget, hb, by simpa [ha] using hall⟩
    · rw [show firstNonAlphaFrom k (a :: rest) = some (k, a) by simp [firstNonAlphaFrom, ha],
        Option.some.injEq, Prod.mk.injEq]
      constructor
      · rintro ⟨rfl, rfl⟩
        exact ⟨Nat.le_refl _, by simp, by simpa using ha, by simp⟩
      · rintro ⟨hk, hget, hb, hall⟩
        rcases Nat.eq_or_lt_of_le hk with rfl | hlt
        · exact ⟨rfl, by simpa using hget⟩
        · obtain ⟨j, rfl⟩ : ∃ j, i = k + 1 + j := ⟨i - (k + 1), by omega⟩
          rw [show k + 1 + j - k = j + 1 by omega] at hall
          exact absurd (hall a (by simp)) ha

theorem firstNonAlpha_eq_some {l : List Byte} {i : Nat} {b : Byte} :
    firstNonAlpha l = some (i, b) ↔
      l[i]? = some b ∧ isAlpha b = false ∧ ∀ c ∈ l.take i, isAlpha c = true := by
  simpa [firstNonAlpha] using (firstNonAlphaFrom_eq_some (l := l) (k := 0) (i := i) (b := b))

/-- A code has only letters exactly when the scan over it finds nothing. -/
theorem wellFormed_iff_scan (c : Bytes4) :
    Bytes4.wellFormed c = true ↔ firstNonAlpha c.toList = none := by
  rw [firstNonAlpha_eq_none, Bytes4.wellFormed, List.all_eq_true]

/-- Source-operand fetch of a tag register: the error commit on an empty one, else the command goes on. -/
theorem withTag_cases (d : Dest) (r : TagReg) (s : State) (go : Bytes4 → Outcome) :
    (s.tag r = none ∧ withTag d r s go = .next (s.raise d (.noTag r))) ∨
      ∃ c, s.tag r = some c ∧ withTag d r s go = go c := by
  unfold withTag
  cases h : s.tag r with
  | none => exact .inl ⟨rfl, rfl⟩
  | some c => exact .inr ⟨c, rfl, rfl⟩

theorem withTag_some {d : Dest} {r : TagReg} {s : State} {c : Bytes4} (go : Bytes4 → Outcome)
    (h : s.tag r = some c) : withTag d r s go = go c := by simp [withTag, h]

theorem withTag_none {d : Dest} {r : TagReg} {s : State} (go : Bytes4 → Outcome)
    (h : s.tag r = none) : withTag d r s go = .next (s.raise d (.noTag r)) := by simp [withTag, h]

/-- Source-operand fetch of CK: the error commit where it is empty, else the command goes on. -/
theorem withChunk_cases (d : Dest) (s : State) (go : Chunk → Outcome) :
    (s.ck = none ∧ withChunk d s go = .next (s.raise d .noChunk)) ∨
      ∃ c, s.ck = some c ∧ withChunk d s go = go c := by
  unfold withChunk
  cases h : s.ck with
  | none => exact .inl ⟨rfl, rfl⟩
  | some c => exact .inr ⟨c, rfl, rfl⟩

theorem withChunk_some {d : Dest} {s : State} {c : Chunk} (go : Chunk → Outcome)
    (h : s.ck = some c) : withChunk d s go = go c := by simp [withChunk, h]

theorem withChunk_none {d : Dest} {s : State} (go : Chunk → Outcome)
    (h : s.ck = none) : withChunk d s go = .next (s.raise d .noChunk) := by simp [withChunk, h]

end Sys2Proof.Machine
end

