-- ==== Sys2Proof/Laws/Chunk.lean ====
section
/-! SUPPORT. What the parse of CHUNK.DECODE does on a buffer laid out field by field (42_chunk.md R101). -/

namespace Sys2Proof.Machine

/-- A field in the middle of a buffer. -/
theorem field4_append {pre post : List Byte} {c : Bytes4} {a : Nat} (h : pre.length = a) :
    Memory.field4 (pre ++ c.toList ++ post) a = some c := by
  subst h
  simp [Memory.field4, Memory.slice, Bytes4.toList, bytes4?]

/-- A run of bytes in the middle of a buffer. -/
theorem slice_append {pre mid post : List Byte} {a n : Nat} (ha : pre.length = a) (hn : mid.length = n) :
    Memory.slice (pre ++ mid ++ post) a n = mid := by
  subst ha hn
  simp [Memory.slice]

/-- Steps 1 to 3 of the parse, where the length and the type field are there. -/
theorem parseRecord_fields (len ty : Bytes4) (rest : List Byte) :
    parseRecord (len.toList ++ ty.toList ++ rest) =
      match firstNonAlpha ty.toList with
      | some (i, v) => .error (.nonAlphabetic i v)
      | none =>
        if rest.length < (be32 len).toNat then .error (.truncated (be32 len).toNat rest.length)
        else parseChecksum (len.toList ++ ty.toList ++ rest) (be32 len) ty := by
  have h0 : Memory.field4 (len.toList ++ ty.toList ++ rest) 0 = some len := by
    simpa using field4_append (pre := []) (c := len) (post := ty.toList ++ rest) rfl
  have h4 : Memory.field4 (len.toList ++ ty.toList ++ rest) 4 = some ty := field4_append rfl
  have hlen : (len.toList ++ ty.toList ++ rest).length - 8 = rest.length := by
    simp
    omega
  unfold parseRecord
  rw [h0]
  simp only
  rw [h4]
  simp only
  rw [hlen] <;> rfl

/-- Step 4 where the checksum field is cut short. -/
theorem parseChecksum_short (len ty : Bytes4) (rest : List Byte) (L : Word) (h : L.toNat ≤ rest.length)
    (h4 : rest.length < L.toNat + 4) :
    parseChecksum (len.toList ++ ty.toList ++ rest) L ty = .error (.truncated 4 (rest.length - L.toNat)) := by
  unfold parseChecksum
  rw [field4_eq_none.mpr (by simp; omega)]
  simp
  omega

/-- Steps 4 and 5 where the checksum field is there. -/
theorem parseChecksum_full (len ty stored : Bytes4) (pay tail : List Byte) (L : Word)
    (h : pay.length = L.toNat) :
    parseChecksum (len.toList ++ ty.toList ++ (pay ++ stored.toList ++ tail)) L ty =
      if crc32 (ty.toList ++ pay) = be32 stored then .ok ⟨L, ty, pay, be32 stored⟩
      else .error (.checksumMismatch (crc32 (ty.toList ++ pay)) (be32 stored)) := by
  have hf : Memory.field4 (len.toList ++ ty.toList ++ (pay ++ stored.toList ++ tail)) (8 + L.toNat) =
      some stored := by
    have := field4_append (pre := len.toList ++ ty.toList ++ pay) (c := stored) (post := tail)
      (a := 8 + L.toNat) (by simp; omega)
    simpa using this
  have hs : Memory.slice (len.toList ++ ty.toList ++ (pay ++ stored.toList ++ tail)) 8 L.toNat = pay := by
    have := slice_append (pre := len.toList ++ ty.toList) (mid := pay) (post := stored.toList ++ tail)
      (a := 8) (by simp) h
    simpa using this
  unfold parseChecksum
  rw [hf]
  simp only [hs, spanCrc]

/-- A buffer of eight bytes or more begins with a length and a type field. -/
theorem exists_fields {b : Memory} (h : 8 ≤ b.length) :
    ∃ (len ty : Bytes4) (rest : List Byte), b = len.toList ++ ty.toList ++ rest := by
  match b, h with
  | b0 :: b1 :: b2 :: b3 :: b4 :: b5 :: b6 :: b7 :: rest, _ =>
    exact ⟨⟨b0, b1, b2, b3⟩, ⟨b4, b5, b6, b7⟩, rest, rfl⟩

/-- A run of `n + 4` bytes or more is a payload of `n` bytes, a checksum field and a tail. -/
theorem exists_payload {rest : List Byte} {n : Nat} (h : n + 4 ≤ rest.length) :
    ∃ (pay : List Byte) (stored : Bytes4) (tail : List Byte),
      rest = pay ++ stored.toList ++ tail ∧ pay.length = n := by
  have hd : 4 ≤ (rest.drop n).length := by
    simp only [List.length_drop]
    omega
  have hsplit := List.take_append_drop n rest
  match hr : rest.drop n, hd with
  | b0 :: b1 :: b2 :: b3 :: tail, _ =>
    refine ⟨rest.take n, ⟨b0, b1, b2, b3⟩, tail, ?_, ?_⟩
    · rw [List.append_assoc]
      rw [hr] at hsplit
      exact hsplit.symm
    · simp only [List.length_take]
      omega

/-- A parse that succeeds read a record (42_chunk.md R101): its four fields, then bytes it ignores. -/
theorem parseRecord_ok {b : Memory} {c : Chunk} (h : parseRecord b = .ok c) :
    ∃ tail, b = c.record ++ tail ∧ c.length.toNat = c.payload.length ∧
      c.crc = crc32 (c.type.toList ++ c.payload) ∧ firstNonAlpha c.type.toList = none := by
  have h8 : 8 ≤ b.length := by
    unfold parseRecord at h
    split at h
    · cases h
    · split at h
      · cases h
      · rename_i hty
        have := mt field4_eq_none.mpr (by rw [hty]; exact Option.some_ne_none _)
        omega
  obtain ⟨len, ty, rest, rfl⟩ := exists_fields h8
  rw [parseRecord_fields] at h
  split at h
  · cases h
  · rename_i hletters
    split at h
    · cases h
    · rename_i hlen
      by_cases h4 : rest.length < (be32 len).toNat + 4
      · rw [parseChecksum_short _ _ _ _ (by omega) h4] at h
        cases h
      · obtain ⟨pay, stored, tail, rfl, hpay⟩ := exists_payload (Nat.le_of_not_lt h4)
        rw [parseChecksum_full _ _ _ _ _ _ hpay] at h
        split at h
        · rename_i hcrc
          cases h
          exact ⟨tail, by simp [Chunk.record], hpay.symm, hcrc.symm, hletters⟩
        · cases h

end Sys2Proof.Machine
end

