-- ==== Sys2Proof/Laws/Crc.lean ====
section
/-! SUPPORT. The CRC-32 unit: an iteration is linear over XOR and loses nothing, and so is a run over
bytes as a function of the register. -/

namespace Sys2Proof.Machine

/-- Bit `i` after one iteration: the bit above it, with the polynomial's where bit 0 was set. -/
theorem crcShift_getLsbD (c : Word) (i : Nat) :
    (crcShift c).getLsbD i = (c.getLsbD (i + 1) ^^ (c.getLsbD 0 && polyR.getLsbD i)) := by
  unfold crcShift
  split <;> simp_all [Nat.add_comm]

/-- One iteration is linear over XOR. -/
theorem crcShift_xor (a b : Word) : crcShift (a ^^^ b) = crcShift a ^^^ crcShift b := by
  apply BitVec.eq_of_getLsbD_eq
  intro i hi
  simp only [BitVec.getLsbD_xor, crcShift_getLsbD]
  cases a.getLsbD 0 <;> cases b.getLsbD 0 <;> cases polyR.getLsbD i <;> simp

/-- One iteration takes only 0 to 0: the polynomial has bit 31, so bit 0 of the register is not lost. -/
theorem crcShift_eq_zero {c : Word} (h : crcShift c = 0#32) : c = 0#32 := by
  have bits : ∀ i, (c.getLsbD (i + 1) ^^ (c.getLsbD 0 && polyR.getLsbD i)) = false := by
    intro i
    rw [← crcShift_getLsbD, h]
    simp
  have bit0 : c.getLsbD 0 = false := by
    have top := bits 31
    rw [BitVec.getLsbD_of_ge c 32 (Nat.le_refl 32), show polyR.getLsbD 31 = true from rfl] at top
    simpa using top
  apply BitVec.eq_of_getLsbD_eq
  intro i hi
  rw [BitVec.getLsbD_zero]
  cases i with
  | zero => exact bit0
  | succ i =>
    have next := bits i
    rw [bit0] at next
    simpa using next

theorem crcShift_injective {a b : Word} (h : crcShift a = crcShift b) : a = b := by
  have : crcShift (a ^^^ b) = 0#32 := by rw [crcShift_xor, h, BitVec.xor_self]
  exact BitVec.xor_eq_zero_iff.mp (crcShift_eq_zero this)

theorem crcShifts_xor (k : Nat) (a b : Word) : crcShifts k (a ^^^ b) = crcShifts k a ^^^ crcShifts k b := by
  induction k generalizing a b with
  | zero => rfl
  | succ k ih => simp only [crcShifts, crcShift_xor, ih]

theorem crcShifts_injective (k : Nat) {a b : Word} (h : crcShifts k a = crcShifts k b) : a = b := by
  induction k generalizing a b with
  | zero => exact h
  | succ k ih => exact crcShift_injective (ih h)

/-- Iterations over a register whose low bits are 0 only shift it. -/
theorem crcShifts_of_low_zero (k : Nat) (c : Word) (h : ∀ i, i < k → c.getLsbD i = false) :
    crcShifts k c = c >>> k := by
  induction k generalizing c with
  | zero => simp [crcShifts]
  | succ k ih =>
    have h0 : crcShift c = c >>> 1 := by
      unfold crcShift
      rw [h 0 (by omega)]
      rfl
    rw [crcShifts, h0, ih]
    · rw [← BitVec.shiftRight_add, Nat.add_comm]
    · intro i hi
      rw [BitVec.getLsbD_ushiftRight]
      exact h _ (by omega)

/-- Different registers stay different over the same byte. -/
theorem crcByte_injective_register {a b : Word} (x : Byte) (h : crcByte a x = crcByte b x) : a = b := by
  have := congrArg (· ^^^ x.setWidth 32) (crcShifts_injective 8 h)
  simpa [BitVec.xor_assoc] using this

/-- Different bytes leave one register different. -/
theorem crcByte_injective_byte {c : Word} {x y : Byte} (h : crcByte c x = crcByte c y) : x = y := by
  have h1 := congrArg (c ^^^ ·) (crcShifts_injective 8 h)
  have h2 : x.setWidth 32 = y.setWidth 32 := by simpa [← BitVec.xor_assoc] using h1
  simpa using congrArg (·.setWidth 8) h2

/-- Different registers stay different over the same bytes. -/
theorem crcRun_injective {a b : Word} (s : List Byte) (h : crcRun a s = crcRun b s) : a = b := by
  induction s generalizing a b with
  | nil => exact h
  | cons x s ih => exact crcByte_injective_register x (ih h)

end Sys2Proof.Machine
end

