-- ==== Sys2Proof/Laws/Decode.lean ====
section
/-! SUPPORT. Command words: their fields, and that the opcode map is one row a code. -/

namespace Sys2Proof

theorem TagReg.ofNum_num (r : TagReg) : TagReg.ofNum r.num = r := by cases r <;> rfl

theorem TagReg.num_ofNum (n : BitVec 2) : (TagReg.ofNum n).num = n := by
  revert n
  decide

/-- No two rows of the opcode map have one operation code (30_encoding.md R57). -/
theorem opRows_opcodes_distinct : opRows.Pairwise (fun a b => a.opc ≠ b.opc) := by
  unfold opRows tagRows chunkRows
  decide

/-- Bit `j` of the field of a word that starts at bit `a`. -/
theorem field_getLsbD (w : CmdWord) (a n j : Nat) (h : j < n) :
    (w.extractLsb' a n).getLsbD j = w.getLsbD (a + j) := by
  simp [h]

/-- The bits of a word built from its fields (30_encoding.md R54). -/
theorem cmdWord_getLsbD (opc : BitVec 8) (td ta tb : BitVec 2) (imm : Word) (i : Nat) :
    (cmdWord opc td ta tb imm).getLsbD i =
      if i < 32 then imm.getLsbD i
      else if i < 50 then false
      else if i < 52 then tb.getLsbD (i - 50)
      else if i < 54 then ta.getLsbD (i - 52)
      else if i < 56 then td.getLsbD (i - 54)
      else opc.getLsbD (i - 56) := by
  simp only [cmdWord, BitVec.getLsbD_append]
  split_ifs <;> first | omega | simp

theorem cmdWord_opc (opc : BitVec 8) (td ta tb : BitVec 2) (imm : Word) :
    CmdWord.opc (cmdWord opc td ta tb imm) = opc := by
  apply BitVec.eq_of_getLsbD_eq
  intro j hj
  rw [CmdWord.opc, field_getLsbD _ _ _ _ hj, cmdWord_getLsbD]
  split_ifs <;> first | omega | (congr 1; omega)

theorem cmdWord_td (opc : BitVec 8) (td ta tb : BitVec 2) (imm : Word) :
    CmdWord.td (cmdWord opc td ta tb imm) = td := by
  apply BitVec.eq_of_getLsbD_eq
  intro j hj
  rw [CmdWord.td, field_getLsbD _ _ _ _ hj, cmdWord_getLsbD]
  split_ifs <;> first | omega | (congr 1; omega)

theorem cmdWord_ta (opc : BitVec 8) (td ta tb : BitVec 2) (imm : Word) :
    CmdWord.ta (cmdWord opc td ta tb imm) = ta := by
  apply BitVec.eq_of_getLsbD_eq
  intro j hj
  rw [CmdWord.ta, field_getLsbD _ _ _ _ hj, cmdWord_getLsbD]
  split_ifs <;> first | omega | (congr 1; omega)

theorem cmdWord_tb (opc : BitVec 8) (td ta tb : BitVec 2) (imm : Word) :
    CmdWord.tb (cmdWord opc td ta tb imm) = tb := by
  apply BitVec.eq_of_getLsbD_eq
  intro j hj
  rw [CmdWord.tb, field_getLsbD _ _ _ _ hj, cmdWord_getLsbD]
  split_ifs <;> first | omega | (congr 1; omega)

theorem cmdWord_imm (opc : BitVec 8) (td ta tb : BitVec 2) (imm : Word) :
    CmdWord.imm (cmdWord opc td ta tb imm) = imm := by
  apply BitVec.eq_of_getLsbD_eq
  intro j hj
  rw [CmdWord.imm, field_getLsbD _ _ _ _ hj, cmdWord_getLsbD]
  split_ifs <;> first | omega | (congr 1; omega)

/-- A mask over a word built from its fields acts field by field; its `ZERO` field has no effect. -/
theorem cmdWord_and (opc : BitVec 8) (td ta tb : BitVec 2) (imm : Word) (m : CmdWord) :
    cmdWord opc td ta tb imm &&& m =
      cmdWord (opc &&& CmdWord.opc m) (td &&& CmdWord.td m) (ta &&& CmdWord.ta m) (tb &&& CmdWord.tb m)
        (imm &&& CmdWord.imm m) := by
  apply BitVec.eq_of_getLsbD_eq
  intro i hi
  simp only [BitVec.getLsbD_and, cmdWord_getLsbD]
  split_ifs
  · rw [CmdWord.imm, field_getLsbD _ _ _ _ (by omega), Nat.zero_add]
  · rfl
  · rw [CmdWord.tb, field_getLsbD _ _ _ _ (by omega), show 50 + (i - 50) = i by omega]
  · rw [CmdWord.ta, field_getLsbD _ _ _ _ (by omega), show 52 + (i - 52) = i by omega]
  · rw [CmdWord.td, field_getLsbD _ _ _ _ (by omega), show 54 + (i - 54) = i by omega]
  · rw [CmdWord.opc, field_getLsbD _ _ _ _ (by omega), show 56 + (i - 56) = i by omega]

end Sys2Proof
end

