-- ==== Sys2Proof/Laws/Exec.lean ====
section
/-! SUPPORT. Once and for all what a command can do: it writes its own destination and succeeds, or it
ends in the error commit of that destination (10_state.md R23, 60_exceptions.md R121, R122). -/

namespace Sys2Proof.Machine

/-- `t` is `s` with a value in the destination `d` and nothing else changed. -/
def Written (d : Dest) (s t : State) : Prop :=
  match d with
  | .tag r => ∃ c, t = s.setTag r (some c)
  | .ck => ∃ c, t = s.setChunk c
  | .obuf => ∃ m, t = s.setObuf m
  | .res => ∃ b, t = s.setRes b
  | .nothing => False

/-- A command with destination `d` ended well: `o` is the success commit over a written destination, or
the error commit. -/
def Ends (d : Dest) (s : State) (o : Outcome) : Prop :=
  (∃ e, o = .next (s.raise d e)) ∨ ∃ t, Written d s t ∧ o = .next t.ok

theorem Ends.raise (d : Dest) (s : State) (e : Err) : Ends d s (.next (s.raise d e)) := .inl ⟨e, rfl⟩

theorem Ends.ok {d : Dest} {s t : State} (h : Written d s t) : Ends d s (.next t.ok) := .inr ⟨t, h, rfl⟩

theorem Ends.withTag {d : Dest} {r : TagReg} {s : State} {go : Bytes4 → Outcome}
    (h : ∀ c, s.tag r = some c → Ends d s (go c)) : Ends d s (withTag d r s go) := by
  rcases withTag_cases d r s go with ⟨_, hw⟩ | ⟨c, hc, hw⟩
  · exact hw ▸ Ends.raise d s _
  · exact hw ▸ h c hc

theorem Ends.withChunk {d : Dest} {s : State} {go : Chunk → Outcome}
    (h : ∀ c, s.ck = some c → Ends d s (go c)) : Ends d s (withChunk d s go) := by
  rcases withChunk_cases d s go with ⟨_, hw⟩ | ⟨c, hc, hw⟩
  · exact hw ▸ Ends.raise d s _
  · exact hw ▸ h c hc

theorem queryTag_ends (property : Bytes4 → Bool) (ta : TagReg) (s : State) :
    Ends .res s (queryTag property ta s) := Ends.withTag fun _ _ => Ends.ok ⟨_, rfl⟩

theorem copyTagOut_ends (ta : TagReg) (s : State) : Ends .obuf s (copyTagOut ta s) :=
  Ends.withTag fun _ _ => Ends.ok ⟨_, rfl⟩

theorem execTagFromBytes_ends (td : TagReg) (imm : Word) (s : State) :
    Ends (.tag td) s (execTagFromBytes td imm s) := by
  unfold execTagFromBytes
  split
  · exact Ends.raise _ _ _
  · exact Ends.ok ⟨_, rfl⟩

theorem execTagFromText_ends (td : TagReg) (s : State) : Ends (.tag td) s (execTagFromText td s) := by
  unfold execTagFromText
  split
  · exact Ends.raise _ _ _
  · split
    · exact Ends.raise _ _ _
    · exact Ends.ok ⟨_, rfl⟩

theorem execChunkDecode_ends (s : State) : Ends .ck s (execChunkDecode s) := by
  unfold execChunkDecode
  split
  · exact Ends.raise _ _ _
  · exact Ends.ok ⟨_, rfl⟩

theorem execChunkText_ends (s : State) : Ends .obuf s (execChunkText s) :=
  Ends.withChunk fun c _ => by
    split
    · exact Ends.ok ⟨_, rfl⟩
    · exact Ends.raise _ _ _

/-- Every command ends in the success commit or in the error commit of its own destination. -/
theorem exec_ends (i : Instr) (s : State) : Ends (destOf i) s (exec i s) := by
  cases i with
  | tagFromBytes td imm => exact execTagFromBytes_ends td imm s
  | tagFromText td => exact execTagFromText_ends td s
  | tagIsCritical ta => exact queryTag_ends _ ta s
  | tagIsPublic ta => exact queryTag_ends _ ta s
  | tagIsResValid ta => exact queryTag_ends _ ta s
  | tagIsSafe ta => exact queryTag_ends _ ta s
  | tagIsValid ta => exact queryTag_ends _ ta s
  | tagBytes ta => exact copyTagOut_ends ta s
  | tagText ta => exact copyTagOut_ends ta s
  | tagEq ta tb => exact Ends.withTag fun _ _ => Ends.withTag fun _ _ => Ends.ok ⟨_, rfl⟩
  | chunkNew ta => exact Ends.withTag fun _ _ => Ends.ok ⟨_, rfl⟩
  | chunkDecode => exact execChunkDecode_ends s
  | chunkEncode => exact Ends.withChunk fun _ _ => Ends.ok ⟨_, rfl⟩
  | chunkText => exact execChunkText_ends s
  | chunkType td => exact Ends.withChunk fun _ _ => Ends.ok ⟨_, rfl⟩
  | chunkPayload => exact Ends.withChunk fun _ _ => Ends.ok ⟨_, rfl⟩

end Sys2Proof.Machine
end

