-- ==== Sys2Proof/Laws/PerInstr.lean ====
section
/-! SUPPORT. A law of every command as syntax: its encoded word has the operation code of the row of the
opcode map that bears its mnemonic, and meets that row's match and mask (30_encoding.md R57, R58). -/

namespace Sys2Proof.Laws

/-- The mnemonic of a command (30_encoding.md R57). -/
def mnemonicOf : Instr → String
  | .tagFromBytes _ _ => "TAG.FROMBYTES"
  | .tagFromText _ => "TAG.FROMTEXT"
  | .tagIsCritical _ => "TAG.ISCRITICAL"
  | .tagIsPublic _ => "TAG.ISPUBLIC"
  | .tagIsResValid _ => "TAG.ISRESVALID"
  | .tagIsSafe _ => "TAG.ISSAFE"
  | .tagIsValid _ => "TAG.ISVALID"
  | .tagBytes _ => "TAG.BYTES"
  | .tagText _ => "TAG.TEXT"
  | .tagEq _ _ => "TAG.EQ"
  | .chunkNew _ => "CHUNK.NEW"
  | .chunkDecode => "CHUNK.DECODE"
  | .chunkEncode => "CHUNK.ENCODE"
  | .chunkText => "CHUNK.TEXT"
  | .chunkType _ => "CHUNK.TYPE"
  | .chunkPayload => "CHUNK.PAYLOAD"

/-- Some row of the opcode map bears the command's mnemonic, and the encoded word fits that row. -/
def FitsRow.Statement (i : Instr) : Prop :=
  ∃ row ∈ opRows, row.mnemonic = mnemonicOf i ∧ CmdWord.opc (encode i) = row.opc ∧
    encode i &&& row.mask = row.pattern

/-- The row at position `k` of the opcode map is a row that fits. -/
theorem FitsRow.of_row (i : Instr) (k : Nat) (row : OpRow) (hk : opRows[k]? = some row)
    (hm : row.mnemonic = mnemonicOf i) (ho : CmdWord.opc (encode i) = row.opc)
    (hp : encode i &&& row.mask = row.pattern) : FitsRow.Statement i :=
  ⟨row, List.mem_of_getElem? hk, hm, ho, hp⟩

theorem FitsRow.tagFromBytes (td : TagReg) (imm : Word) : FitsRow.Statement (.tagFromBytes td imm) := by
  refine FitsRow.of_row _ 0 _ rfl rfl (cmdWord_opc _ _ _ _ _) ?_
  rw [encode, cmdWord_and, show CmdWord.imm 0xFF3FFFFF00000000#64 = 0#32 from rfl, BitVec.and_zero]
  cases td <;> rfl

theorem FitsRow.tagFromText (td : TagReg) : FitsRow.Statement (.tagFromText td) :=
  FitsRow.of_row _ 1 _ rfl rfl (cmdWord_opc _ _ _ _ _) (by cases td <;> rfl)

theorem FitsRow.tagIsCritical (ta : TagReg) : FitsRow.Statement (.tagIsCritical ta) :=
  FitsRow.of_row _ 2 _ rfl rfl (cmdWord_opc _ _ _ _ _) (by cases ta <;> rfl)

theorem FitsRow.tagIsPublic (ta : TagReg) : FitsRow.Statement (.tagIsPublic ta) :=
  FitsRow.of_row _ 3 _ rfl rfl (cmdWord_opc _ _ _ _ _) (by cases ta <;> rfl)

theorem FitsRow.tagIsResValid (ta : TagReg) : FitsRow.Statement (.tagIsResValid ta) :=
  FitsRow.of_row _ 4 _ rfl rfl (cmdWord_opc _ _ _ _ _) (by cases ta <;> rfl)

theorem FitsRow.tagIsSafe (ta : TagReg) : FitsRow.Statement (.tagIsSafe ta) :=
  FitsRow.of_row _ 5 _ rfl rfl (cmdWord_opc _ _ _ _ _) (by cases ta <;> rfl)

theorem FitsRow.tagIsValid (ta : TagReg) : FitsRow.Statement (.tagIsValid ta) :=
  FitsRow.of_row _ 6 _ rfl rfl (cmdWord_opc _ _ _ _ _) (by cases ta <;> rfl)

theorem FitsRow.tagBytes (ta : TagReg) : FitsRow.Statement (.tagBytes ta) :=
  FitsRow.of_row _ 7 _ rfl rfl (cmdWord_opc _ _ _ _ _) (by cases ta <;> rfl)

theorem FitsRow.tagText (ta : TagReg) : FitsRow.Statement (.tagText ta) :=
  FitsRow.of_row _ 8 _ rfl rfl (cmdWord_opc _ _ _ _ _) (by cases ta <;> rfl)

theorem FitsRow.tagEq (ta tb : TagReg) : FitsRow.Statement (.tagEq ta tb) :=
  FitsRow.of_row _ 9 _ rfl rfl (cmdWord_opc _ _ _ _ _) (by cases ta <;> cases tb <;> rfl)

theorem FitsRow.chunkNew (ta : TagReg) : FitsRow.Statement (.chunkNew ta) :=
  FitsRow.of_row _ 10 _ rfl rfl (cmdWord_opc _ _ _ _ _) (by cases ta <;> rfl)

theorem FitsRow.chunkDecode : FitsRow.Statement .chunkDecode :=
  FitsRow.of_row _ 11 _ rfl rfl (cmdWord_opc _ _ _ _ _) (rfl)

theorem FitsRow.chunkEncode : FitsRow.Statement .chunkEncode :=
  FitsRow.of_row _ 12 _ rfl rfl (cmdWord_opc _ _ _ _ _) (rfl)

theorem FitsRow.chunkText : FitsRow.Statement .chunkText :=
  FitsRow.of_row _ 13 _ rfl rfl (cmdWord_opc _ _ _ _ _) (rfl)

theorem FitsRow.chunkType (td : TagReg) : FitsRow.Statement (.chunkType td) :=
  FitsRow.of_row _ 14 _ rfl rfl (cmdWord_opc _ _ _ _ _) (by cases td <;> rfl)

theorem FitsRow.chunkPayload : FitsRow.Statement .chunkPayload :=
  FitsRow.of_row _ 15 _ rfl rfl (cmdWord_opc _ _ _ _ _) (rfl)

end Sys2Proof.Laws
end

