-- ==== Sys2Proof/Tests/Slice0.lean ====
section
/-! SUPPORT. Tests of the model against the spec's own words and numbers (95_test_vectors.md and the rules'
examples), the WellFormed smoke, and a witness for the hypotheses of every statement that has any. -/

namespace Sys2Proof.Tests

open Sys2Proof Sys2Proof.Machine Sys2Proof.Claims

/-! ### Decoding: words written out in 95_test_vectors.md section 2, every command -/

theorem test_decode_tagFromBytes :
    decodeTableWord 64 0x10C0000049454E44 = some (.tagFromBytes .t3 0x49454E44#32) := by decide
theorem test_decode_tagFromText : decodeTableWord 64 0x11C0000000000000 = some (.tagFromText .t3) := by decide
theorem test_decode_tagIsCritical : decodeTableWord 64 0x1230000000000000 = some (.tagIsCritical .t3) := by decide
theorem test_decode_tagIsPublic : decodeTableWord 64 0x1320000000000000 = some (.tagIsPublic .t2) := by decide
theorem test_decode_tagIsResValid : decodeTableWord 64 0x1410000000000000 = some (.tagIsResValid .t1) := by decide
theorem test_decode_tagIsSafe : decodeTableWord 64 0x1510000000000000 = some (.tagIsSafe .t1) := by decide
theorem test_decode_tagIsValid : decodeTableWord 64 0x1630000000000000 = some (.tagIsValid .t3) := by decide
theorem test_decode_tagBytes : decodeTableWord 64 0x1720000000000000 = some (.tagBytes .t2) := by decide
theorem test_decode_tagText : decodeTableWord 64 0x1810000000000000 = some (.tagText .t1) := by decide
theorem test_decode_tagEq : decodeTableWord 64 0x1938000000000000 = some (.tagEq .t3 .t2) := by decide
theorem test_decode_chunkNew : decodeTableWord 64 0x2030000000000000 = some (.chunkNew .t3) := by decide
theorem test_decode_chunkDecode : decodeTableWord 64 0x2100000000000000 = some .chunkDecode := by decide
theorem test_decode_chunkEncode : decodeTableWord 64 0x2200000000000000 = some .chunkEncode := by decide
theorem test_decode_chunkText : decodeTableWord 64 0x2300000000000000 = some .chunkText := by decide
theorem test_decode_chunkType : decodeTableWord 64 0x2480000000000000 = some (.chunkType .t2) := by decide
theorem test_decode_chunkPayload : decodeTableWord 64 0x2500000000000000 = some .chunkPayload := by decide

/-- The illegal words of 95_test_vectors.md section 2 select no command. -/
theorem test_decode_illegal_words :
    [0x0000000000000000, 0xFFFFFFFFFFFFFFFF, 0x1A00000000000000, 0x1F00000000000000, 0x2600000000000000,
     0x0F00000052755374, 0x2140000000000000, 0x2100000000000001, 0x1214000000000000, 0x1250000000000000,
     0x1010000052755374, 0x2200000100000000, 0x1000000152755374, 0x1100000052755374, 0x1940000000000000,
     0x2004000000000000, 0x2410000000000000].map (decodeTableWord 64) = List.replicate 17 none := by decide

/-- The encoder gives the word the spec writes (30_encoding.md R61). -/
theorem test_encode_examples :
    [encode (.tagFromBytes .t1 0x52755374#32), encode (.tagEq .t0 .t1), encode (.chunkType .t1)] =
      [0x1040000052755374#64, 0x1904000000000000#64, 0x2440000000000000#64] := by decide

/-! ### The WellFormed smoke -/

/-- An `H_WRITE_IBUF` of more than PMAX bytes is refused by the check. -/
theorem test_wf_refuses_long_ibuf :
    (HostAction.writeIbuf (List.replicate (Config.pmax + 1) 0#8)).wf = false := by
  simp [HostAction.wf]

theorem test_wf_accepts_ibuf : (HostAction.writeIbuf (List.replicate 54 0#8)).wf = true := by decide

/-! ### Small states -/

/-- The next state of an outcome. -/
def after : Outcome → Option State
  | .next s => some s
  | .fault _ => none
  | .refused _ => none

/-- STATUS, ERRD0 and ERRD1 after an outcome. -/
def triple (o : Outcome) : Option (Word × Word × Word) := (after o).map (fun t => (t.status, t.errd0, t.errd1))

/-- The code "RuSt". -/
def ruSt : Bytes4 := ⟨0x52, 0x75, 0x53, 0x74⟩

/-- The code "Rust". -/
def rust : Bytes4 := ⟨0x52, 0x75, 0x73, 0x74⟩

/-- The 42 bytes of MSG (95_test_vectors.md). -/
def msg : List Byte :=
  [0x54, 0x68, 0x69, 0x73, 0x20, 0x69, 0x73, 0x20, 0x77, 0x68, 0x65, 0x72, 0x65, 0x20] ++
  [0x79, 0x6F, 0x75, 0x72, 0x20, 0x73, 0x65, 0x63, 0x72, 0x65, 0x74, 0x20, 0x6D, 0x65] ++
  [0x73, 0x73, 0x61, 0x67, 0x65, 0x20, 0x77, 0x69, 0x6C, 0x6C, 0x20, 0x62, 0x65, 0x21]

/-- The 54 bytes of REC (95_test_vectors.md, S5). -/
def record : List Byte := [0x00, 0x00, 0x00, 0x2A, 0x52, 0x75, 0x53, 0x74] ++ msg ++ [0xAB, 0xD1, 0xD8, 0x4E]

/-- The smallest record, type "RuSt" (95_test_vectors.md section 3.3). -/
def smallRecord : List Byte := [0x00, 0x00, 0x00, 0x00, 0x52, 0x75, 0x53, 0x74, 0xD4, 0x84, 0x09, 0x3C]

/-- The reset state with input bytes. -/
def withIbuf (b : List Byte) : State := { State.reset with ibuf := b }

/-- `T[1]` = "RuSt", `T[2]` = "Rust", `IBUF` = "hi", and old values in RES, OBUF and the outcome words. -/
def tagged : State :=
  { State.reset with
    t1 := some ruSt, t2 := some rust, ibuf := [0x68, 0x69], obuf := [1, 2, 3, 4, 5], res := 1#1,
    status := 5#32, errd0 := 1#32 }

/-- A chunk of type "RuSt" and payload "hi" is in CK. -/
def chunked : State :=
  { State.reset with
    ck := some ⟨2#32, ruSt, [0x68, 0x69], crc32 (ruSt.toList ++ [0x68, 0x69])⟩, obuf := [9], t3 := some rust }

/-! ### The CRC-32 unit (95_test_vectors.md section 3.1) -/

theorem test_crc_byte_corners :
    [crcByte 0#32 0x01, crcByte 0#32 0x80, crcByte 0xFFFFFFFF#32 0x00, crcByte 0x12345678#32 0x9A] =
      [0x77073096#32, 0xEDB88320#32, 0x2DFD1072#32, 0x4E16B702#32] := by decide +kernel

/-- The source's own vector S5, and the published check value. -/
theorem test_crc_source_vector : crc32 (ruSt.toList ++ msg) = 2882656334#32 := by decide +kernel

theorem test_crc_values :
    [crc32 [], crc32 [0x31, 0x32, 0x33, 0x34, 0x35, 0x36, 0x37, 0x38, 0x39], crc32 [0x49, 0x45, 0x4E, 0x44]] =
      [0x00000000#32, 0xCBF43926#32, 0xAE426082#32] := by decide +kernel

/-- The reflected constant is the bit reversal of the polynomial (40_crc32.md R71). -/
theorem test_polynomial_reflected :
    ∀ i : Fin 32, polyR.getLsbD i = (0x04C11DB7#32).getLsbD (31 - i) := by decide

/-! ### utf8Valid (95_test_vectors.md section 3.3) -/

theorem test_utf8_valid :
    [[], [0x7F], [0xC2, 0x80], [0xDF, 0xBF], [0xE0, 0xA0, 0x80], [0xED, 0x9F, 0xBF], [0xEE, 0x80, 0x80],
     [0xEF, 0xBF, 0xBF], [0xF0, 0x90, 0x80, 0x80], [0xF4, 0x8F, 0xBF, 0xBF], msg].all utf8Valid = true := by
  decide +kernel

theorem test_utf8_invalid :
    [[0x80], [0xBF], [0xC0, 0x80], [0xC1, 0xBF], [0xC2], [0xC2, 0x41], [0xE0, 0x9F, 0xBF], [0xED, 0xA0, 0x80],
     [0xED, 0xBF, 0xBF], [0xE2, 0x82], [0xF0, 0x8F, 0xBF, 0xBF], [0xF4, 0x90, 0x80, 0x80], [0xF5, 0x80, 0x80, 0x80],
     [0xFF], [0xFE], [0x41, 0x80], [0xF0, 0x9F, 0x98]].any utf8Valid = false := by decide +kernel

/-! ### The TAG commands (95_test_vectors.md section 3.2) -/

theorem test_tagFromBytes_ok :
    (after (exec (.tagFromBytes .t1 0x41415A7A#32) tagged)).map State.t1 =
      some (some ⟨0x41, 0x41, 0x5A, 0x7A⟩) := by decide
theorem test_tagFromBytes_error :
    triple (exec (.tagFromBytes .t1 0x417B4141#32) tagged) = some (0x0A#32, 1#32, 0x7B#32) := by decide

/-- "RuSt1": the letters of the whole text are checked before the length. -/
theorem test_tagFromText_letters_first :
    triple (exec (.tagFromText .t0) (withIbuf [0x52, 0x75, 0x53, 0x74, 0x31])) =
      some (0x0A#32, 4#32, 0x31#32) := by decide
theorem test_tagFromText_wrong_length :
    triple (exec (.tagFromText .t0) (withIbuf [])) = some (0x12#32, 4#32, 0#32) := by decide

/-- S2 and S3: the five queries on "RuSt" and on "Rust". -/
theorem test_queries_ruSt :
    [exec (.tagIsCritical .t1) tagged, exec (.tagIsPublic .t1) tagged, exec (.tagIsResValid .t1) tagged,
     exec (.tagIsSafe .t1) tagged, exec (.tagIsValid .t1) tagged].map (fun o => (after o).map State.res) =
      [some 1#1, some 0#1, some 1#1, some 1#1, some 1#1] := by decide
theorem test_queries_rust :
    [exec (.tagIsCritical .t2) tagged, exec (.tagIsPublic .t2) tagged, exec (.tagIsResValid .t2) tagged,
     exec (.tagIsSafe .t2) tagged, exec (.tagIsValid .t2) tagged].map (fun o => (after o).map State.res) =
      [some 1#1, some 0#1, some 0#1, some 1#1, some 0#1] := by decide

theorem test_tagBytes :
    (after (exec (.tagBytes .t2) tagged)).map State.obuf = some [0x52, 0x75, 0x73, 0x74] := by decide
theorem test_tagText_empty :
    (triple (exec (.tagText .t3) tagged), (after (exec (.tagText .t3) tagged)).map State.obuf) =
      (some (5#32, 0#32, 3#32), some []) := by decide
theorem test_tagEq_case_sensitive :
    (after (exec (.tagEq .t1 .t2) tagged)).map State.res = some 0#1 := by decide
theorem test_tagEq_second_empty :
    triple (exec (.tagEq .t1 .t3) tagged) = some (5#32, 0#32, 3#32) := by decide

/-! ### The CHUNK commands (95_test_vectors.md sections 1 and 3.3) -/

/-- `"Rust"` and `68 69` (section 3.3): CKLEN 2, CKCRC 0x728E904D. -/
theorem test_chunkNew :
    (after (exec (.chunkNew .t2) tagged)).map State.ck =
      some (some ⟨2#32, rust, [0x68, 0x69], 0x728E904D#32⟩) := by decide +kernel
theorem test_chunkDecode_source_vector :
    (after (exec .chunkDecode (withIbuf record))).map State.ck =
      some (some ⟨42#32, ruSt, msg, 2882656334#32⟩) := by decide +kernel

/-- L = 2^32 - 1 does not wrap (20_memory.md R33). -/
theorem test_chunkDecode_no_wrap :
    triple (exec .chunkDecode (withIbuf ([0xFF, 0xFF, 0xFF, 0xFF, 0x52, 0x75, 0x53, 0x74] ++ List.replicate 12 0))) =
      some (1#32, 0xFFFFFFFF#32, 12#32) := by decide +kernel

/-- The type is reported before the short payload (section 3.3). -/
theorem test_chunkDecode_type_before_payload :
    triple (exec .chunkDecode (withIbuf [0x00, 0x00, 0x00, 0x2A, 0x52, 0x75, 0x35, 0x74])) =
      some (0x0A#32, 2#32, 0x35#32) := by decide +kernel

/-- S6: the stored checksum is 2882656333. -/
theorem test_chunkDecode_mismatch :
    triple (exec .chunkDecode (withIbuf (record.take 53 ++ [0x4D]))) =
      some (3#32, 0xABD1D84E#32, 0xABD1D84D#32) := by decide +kernel
theorem test_chunkEncode :
    (after (exec .chunkEncode { State.reset with ck := some ⟨0#32, ruSt, [], 0xD484093C#32⟩ })).map State.obuf =
      some smallRecord := by decide +kernel
theorem test_chunkText :
    (after (exec .chunkText chunked)).map State.obuf = some [0x68, 0x69] := by decide +kernel

/-- S7: a lone continuation byte is not text. -/
theorem test_chunkText_not_text :
    (triple (exec .chunkText { chunked with ck := some ⟨1#32, ruSt, [0x80], 0x10019423#32⟩ }),
      (after (exec .chunkText { chunked with ck := some ⟨1#32, ruSt, [0x80], 0x10019423#32⟩ })).map State.obuf) =
      (some (4#32, 0#32, 0#32), some []) := by decide +kernel
theorem test_chunkType :
    (after (exec (.chunkType .t2) chunked)).map State.t2 = some (some ruSt) := by decide +kernel
theorem test_chunkType_empty :
    (triple (exec (.chunkType .t2) tagged), (after (exec (.chunkType .t2) tagged)).map State.t2) =
      (some (5#32, 1#32, 0#32), some none) := by decide
theorem test_chunkPayload :
    (after (exec .chunkPayload chunked)).map State.obuf = some [0x68, 0x69] := by decide +kernel

/-! ### Steps and host actions -/

/-- The word 0x1234000000000000 is illegal, although T[3] is empty too: decoding comes first (section 3.5). -/
theorem test_step_illegal_word_first :
    triple (step (State.reset.withFetchWord 64 0x1234000000000000)) = some (6#32, 0x12340000#32, 0#32) := by decide

theorem test_step_runs_placed_word :
    triple (step (State.reset.withFetchWord 64 0x2100000000000000)) = some (1#32, 4#32, 0#32) := by decide

/-- TVALID of a state with T1 and T2 held is 6. -/
theorem test_read_tvalid : tagged.hostReg .tvalid = some 6#32 := by decide

theorem test_reset_action : after (runAction .reset tagged) = some State.reset := by decide

theorem test_idle : after (step tagged) = some tagged := by decide

/-! ### Witnesses: states and operands that meet the hypotheses of the statements -/

/-- Letters in every byte, by computation. -/
theorem allLetters_of {l : List Byte} (h : l.all (fun b => decide (Letter b)) = true) : AllLetters l := by
  intro b hb
  exact of_decide_eq_true (List.all_eq_true.mp h b hb)

/-- The first byte that is no letter, by computation. -/
theorem firstNonLetter_of {l : List Byte} {i : Nat} {b : Byte} (hget : l[i]? = some b) (hb : ¬ Letter b)
    (hall : (l.take i).all (fun b => decide (Letter b)) = true) : FirstNonLetter l i b := by
  refine ⟨hget, hb, fun j c hj hc => ?_⟩
  refine of_decide_eq_true (List.all_eq_true.mp hall c ?_)
  exact List.mem_of_getElem? (by rw [List.getElem?_take_of_lt hj]; exact hc)

theorem tagged_inv : tagged.Inv where
  tags r c h := by
    cases r <;> simp [tagged, State.tag, State.reset] at h <;> (subst h; decide)
  chunk c h := by simp [tagged, State.reset] at h
  ibuf_fits := by decide
  obuf_fits := by decide
  status_value := by decide
  no_detail_after_ok h := absurd h (by decide)

theorem chunked_inv : chunked.Inv where
  tags r c h := by
    cases r <;> simp [chunked, State.tag, State.reset] at h
    subst h
    decide
  chunk c h := by
    simp [chunked, State.reset] at h
    subst h
    exact ⟨by decide, rfl, by decide, by decide⟩
  ibuf_fits := by decide
  obuf_fits := by decide
  status_value := by decide
  no_detail_after_ok _ := by decide

theorem witness_DecodeOfEncodeGivesTheCommand : (Instr.tagFromBytes .t3 0xFFFFFFFF#32).wf = true := by decide

theorem witness_EncodeOfDecodeGivesTheWord : decode 0x19FC000000000000#64 ≠ .ok (.tagEq .t3 .t3) ∧
    decode 0x193C000000000000#64 = .ok (.tagEq .t3 .t3) := by decide

/-- Commands that use no field, `TD`, `TA`, `TB` and `IMM` (UnusedFieldsOfACommandAreZero). -/
theorem witness_UnusedFieldsOfACommandAreZero :
    (decode 0x2100000000000000#64 = .ok .chunkDecode ∧ ¬ usesTd .chunkDecode ∧ ¬ usesTa .chunkDecode ∧
      ¬ usesTb .chunkDecode ∧ ¬ usesImm .chunkDecode) ∧
    decode 0x10C00000FFFFFFFF#64 = .ok (.tagFromBytes .t3 0xFFFFFFFF#32) :=
  ⟨⟨by decide, id, id, id, id⟩, by decide⟩

/-- The words next to the assigned codes, and a command with an unused field set. -/
theorem witness_IllegalWordWritesOnlyTheOutcome :
    ∀ w ∈ [0x0F00000000000000#64, 0x1A00000000000000#64, 0x1FFFFFFFFFFFFFFF#64, 0x2600000000000000#64,
      0x2100000000000001#64, 0x1000000100000000#64], ∀ row ∈ opcodeMap, w &&& row.mask ≠ row.pattern := by
  simp [opcodeMap]

theorem witness_StepRunsTheDecodedCommand :
    ∃ s rest, State.host s = .cmd 0x2100000000000000#64 :: rest ∧
      decode 0x2100000000000000#64 = .ok .chunkDecode ∧ Instr.chunkDecode.wf = true :=
  ⟨State.reset.withFetchWord 64 0x2100000000000000, [], by decide, by decide, by decide⟩

theorem witness_StepTakesTheNextHostAction :
    (∃ s : State, s.host = .readObuf :: [.reset]) ∧ State.reset.host = [] :=
  ⟨⟨{ State.reset with host := [.readObuf, .reset] }, rfl⟩, rfl⟩

/-- Both clauses at the boundary: exactly PMAX bytes, and one more. -/
theorem witness_WriteIbufReplacesTheBuffer :
    (List.replicate Config.pmax 0#8).length ≤ Config.pmax ∧
      Config.pmax < (List.replicate (Config.pmax + 1) 0#8).length := by simp

theorem witness_HostVisibleRegistersHoldTheirContents :
    (∃ c, chunked.ck = some c) ∧ chunked.ibuf.length < 2 ^ 32 ∧ chunked.obuf.length < 2 ^ 32 :=
  ⟨⟨_, rfl⟩, by decide, by decide⟩

theorem witness_ReadsReturnTheValueAndChangeNothing : tagged.hostReg .ilen = some 2#32 := by decide

theorem witness_ReadsWithoutAValueGiveNone :
    tagged.ck = none ∧ tagged.obuf.length ≤ 5 ∧ tagged.ibuf.length ≤ 2 := by decide

theorem witness_ReadingIbufDoesNotConsumeIt :
    (∃ t, exec (.tagFromText .t0) tagged = .next t) ∧ (∃ t, exec (.chunkNew .t1) tagged = .next t) ∧
      ∃ t, exec .chunkDecode tagged = .next t := ⟨⟨_, rfl⟩, ⟨_, rfl⟩, ⟨_, rfl⟩⟩

/-- A state in which each of the two stops is reached. -/
theorem witness_StepStopsOnlyOnTheTwoHostActions :
    (∃ s : State, s.ck = none ∧ s.host = .read .cklen :: []) ∧
      ∃ s : State, s.host = .writeIbuf (List.replicate (Config.pmax + 1) 0#8) :: [] :=
  ⟨⟨{ State.reset with host := [.read .cklen] }, rfl, rfl⟩,
    ⟨{ State.reset with host := [.writeIbuf (List.replicate (Config.pmax + 1) 0#8)] }, rfl⟩⟩

/-- A state with objects in its registers that meets the invariant and from which a step answers. -/
theorem witness_EveryStepKeepsTheInvariants : tagged.Inv ∧ ∃ t, step tagged = .next t :=
  ⟨tagged_inv, ⟨_, rfl⟩⟩

theorem witness_EveryCommandChangesOnlyItsDestination : ∃ t, exec .chunkPayload chunked = .next t := ⟨_, rfl⟩

theorem witness_CommandsLeaveTheHostsSideAlone : ∃ t, exec .chunkDecode tagged = .next t := ⟨_, rfl⟩

theorem witness_ErrorsEmptyTheDestination :
    (∃ t, exec .chunkPayload tagged = .next t ∧ t.status ≠ 0#32) ∧
      ∃ t, exec .chunkPayload chunked = .next t ∧ t.status = 0#32 :=
  ⟨⟨_, rfl, by decide⟩, ⟨_, rfl, by decide⟩⟩

theorem witness_OutcomesComeOnlyFromTheirCommands : ∃ t, exec .chunkText tagged = .next t ∧ t.status = 5#32 :=
  ⟨_, rfl, by decide⟩

theorem witness_CommandsDoNotReadTheOutcomeRegisters :
    SameInputs tagged { tagged with res := 0#1, status := 3#32, errd0 := 7#32, errd1 := 8#32 } ∧
      destOf (.tagEq .t1 .t1) = .res ∧ ∃ t, exec (.tagEq .t1 .t1) tagged = .next t :=
  ⟨⟨fun r => by cases r <;> rfl, rfl, rfl, rfl⟩, rfl, ⟨_, rfl⟩⟩

theorem witness_OnlyTheHostWritesIbuf :
    ∃ s t : State, step s = .next t ∧ t.ibuf ≠ s.ibuf :=
  ⟨{ tagged with host := [.reset] }, State.reset, rfl, by decide⟩

/-- A chunk lost to the error commit of a decode, and a tag lost to a reset. -/
theorem witness_ObjectsCeaseOnlyByResetOrError :
    (∃ s t : State, step s = .next t ∧ ¬ s.emptyAt .ck ∧ t.emptyAt .ck ∧ t.status ≠ 0#32) ∧
      ∃ s t : State, step s = .next t ∧ ¬ s.emptyAt (.tag .t1) ∧ t.emptyAt (.tag .t1) :=
  ⟨⟨chunked.withFetchWord 64 0x2100000000000000, _, rfl, nofun, rfl, by decide⟩,
    ⟨{ tagged with host := [.reset] }, State.reset, rfl, nofun, rfl⟩⟩

/-- Both clauses of TAG.FROMBYTES, the second at the first and at the last byte. -/
theorem witness_TagFromBytesConstructsOrRejects :
    AllLetters (be32Bytes 0x41415A7A).toList ∧ FirstNonLetter (be32Bytes 0x405B607B).toList 0 0x40#8 ∧
      FirstNonLetter (be32Bytes 0x41414160).toList 3 0x60#8 :=
  ⟨allLetters_of (by decide), firstNonLetter_of (by decide) (by decide) (by decide),
    firstNonLetter_of (by decide) (by decide) (by decide)⟩

/-- The clauses of TAG.FROMTEXT: a digit in a text of 3 and of 5 bytes; 3, 5 and 0 letters; 4 letters. -/
theorem witness_TagFromTextChecksLettersThenLength :
    FirstNonLetter (withIbuf [0x52, 0x75, 0x31]).ibuf 2 0x31#8 ∧
    FirstNonLetter (withIbuf [0x52, 0x75, 0x53, 0x74, 0x31]).ibuf 4 0x31#8 ∧
    (∀ l ∈ [[], [0x52, 0x75, 0x73], [0x52, 0x75, 0x53, 0x74, 0x78]],
      AllLetters (withIbuf l).ibuf ∧ (withIbuf l).ibuf.length ≠ 4) ∧
    (AllLetters (withIbuf ruSt.toList).ibuf ∧ (withIbuf ruSt.toList).ibuf = ruSt.toList) := by
  refine ⟨firstNonLetter_of (by decide) (by decide) (by decide),
    firstNonLetter_of (by decide) (by decide) (by decide), ?_, allLetters_of (by decide), rfl⟩
  intro l hl
  refine ⟨allLetters_of ?_, ?_⟩ <;> revert l <;> decide

theorem witness_PropertyQueriesAnswerTheCaseOfOneByte :
    tagged.tag .t1 = some ruSt ∧ tagged.tag .t3 = none := by decide

theorem witness_PropertiesAreBitFiveOfTheirByte : tagged.Inv ∧ tagged.tag .t2 = some rust := ⟨tagged_inv, rfl⟩

theorem witness_TagBytesAndTextCopyTheCode :
    tagged.tag .t2 = some rust ∧ tagged.tag .t0 = none := by decide

/-- Both operands held; the first empty; the second empty. -/
theorem witness_TagEqComparesTheBytes :
    (tagged.tag .t1 = some ruSt ∧ tagged.tag .t2 = some rust) ∧ tagged.tag .t0 = none ∧
      (tagged.tag .t1 = some ruSt ∧ tagged.tag .t3 = none) := by decide

/-- One empty operand; the second of two; the first of two that are both empty. -/
theorem witness_FirstEmptyTagOperandGivesNoObject :
    (tagSources (.chunkNew .t3)).find? (fun q => (tagged.tag q).isNone) = some .t3 ∧
    (tagSources (.tagEq .t1 .t0)).find? (fun q => (tagged.tag q).isNone) = some .t0 ∧
    (tagSources (.tagEq .t3 .t0)).find? (fun q => (tagged.tag q).isNone) = some .t3 := by decide

theorem witness_TextOfATagConstructsItAgain :
    tagged.Inv ∧ tagged.tag .t1 = some ruSt ∧ ∃ t, exec (.tagText .t1) tagged = .next t :=
  ⟨tagged_inv, rfl, ⟨_, rfl⟩⟩

theorem witness_ChunkNewFramesTagAndIbuf :
    tagged.tag .t1 = some ruSt ∧ tagged.tag .t0 = none ∧ tagged.ibuf.length ≤ Config.pmax := by decide

/-- The clauses of CHUNK.DECODE at their boundaries: 0 and 3 bytes; 4 and 7 bytes; a digit in the type; a
payload one byte short; a checksum field with none and with three of its bytes; a checksum off by one; the
accepted record, and the accepted record with a tail. -/
theorem witness_ChunkDecodeParsesTheRecord :
    (withIbuf []).ibuf.length < 4 ∧ (withIbuf (record.take 3)).ibuf.length < 4 ∧
    (4 ≤ (withIbuf (record.take 4)).ibuf.length ∧ (withIbuf (record.take 7)).ibuf.length < 8) ∧
    FirstNonLetter (⟨0x52, 0x75, 0x35, 0x74⟩ : Bytes4).toList 2 0x35#8 ∧
    (AllLetters ruSt.toList ∧ [0x68#8].length < be32Nat ⟨0, 0, 0, 2⟩) ∧
    (be32Nat ⟨0, 0, 0, 2⟩ ≤ [0x68#8, 0x69].length ∧ [0x68#8, 0x69, 1, 2, 3].length < be32Nat ⟨0, 0, 0, 2⟩ + 4) ∧
    (([] : List Byte).length = be32Nat ⟨0, 0, 0, 0⟩ ∧
      (crc32 (ruSt.toList ++ [])).toNat ≠ be32Nat ⟨0xD4, 0x84, 0x09, 0x3D⟩ ∧
      (crc32 (ruSt.toList ++ [])).toNat = be32Nat ⟨0xD4, 0x84, 0x09, 0x3C⟩) ∧
    (withIbuf (smallRecord ++ [0xDE, 0xAD])).ibuf = (⟨0, 0, 0, 0⟩ : Bytes4).toList ++ ruSt.toList ++
      ([] ++ (⟨0xD4, 0x84, 0x09, 0x3C⟩ : Bytes4).toList ++ [0xDE, 0xAD]) := by
  refine ⟨by decide, by decide, by decide, firstNonLetter_of (by decide) (by decide) (by decide),
    ⟨allLetters_of (by decide), by decide⟩, by decide, by decide +kernel, by decide⟩

theorem witness_ChunkEncodeEmitsTheRecord : (∃ c, chunked.ck = some c) ∧ tagged.ck = none := ⟨⟨_, rfl⟩, rfl⟩

theorem witness_EncodedRecordHasItsFieldsInPlace :
    chunked.Inv ∧ (∃ c, chunked.ck = some c) ∧ ∃ t, exec .chunkEncode chunked = .next t :=
  ⟨chunked_inv, ⟨_, rfl⟩, ⟨_, rfl⟩⟩

/-- A payload that is text, one that is not, and no chunk. -/
theorem witness_ChunkTextCopiesValidText :
    (∃ s : State, ∃ c, s.ck = some c ∧ utf8Valid c.payload = true) ∧
      (∃ s : State, ∃ c, s.ck = some c ∧ utf8Valid c.payload = false) ∧ tagged.ck = none :=
  ⟨⟨chunked, _, rfl, by decide +kernel⟩,
    ⟨{ chunked with ck := some ⟨1#32, ruSt, [0x80], 0x10019423#32⟩ }, _, rfl, by decide +kernel⟩, rfl⟩

theorem witness_ChunkTypeAndPayloadAreHandedOut : (∃ c, chunked.ck = some c) ∧ tagged.ck = none :=
  ⟨⟨_, rfl⟩, rfl⟩

/-- The first clause on a chunk in CK, the second on a tag and an input buffer; with 42 bytes of payload the
record has 54 bytes, the least PMAX. -/
theorem witness_EncodeThenDecodeRestoresTheChunk :
    (chunked.Inv ∧ ∃ c, chunked.ck = some c ∧ 12 + c.length.toNat ≤ Config.pmax) ∧
      (tagged.Inv ∧ tagged.tag .t1 = some ruSt ∧ 12 + tagged.ibuf.length ≤ Config.pmax) ∧
      12 + msg.length ≤ Config.pmax :=
  ⟨⟨chunked_inv, _, rfl, by decide⟩, ⟨tagged_inv, rfl, by decide⟩, by decide⟩

theorem witness_DecodeThenEncodeReproducesTheRecord :
    ∃ t, exec .chunkDecode (withIbuf smallRecord) = .next t ∧ t.status = 0#32 := by
  have h : (after (exec .chunkDecode (withIbuf smallRecord))).map State.status = some 0#32 := by
    decide +kernel
  rcases hx : exec .chunkDecode (withIbuf smallRecord) with t | r | r
  · rw [hx] at h
    exact ⟨t, rfl, by simpa [after] using h⟩
  · rw [hx] at h; cases h
  · rw [hx] at h; cases h

theorem record_good : GoodRecord record 42 ruSt msg where
  bytes := by decide +kernel
  len_eq := by decide
  len_lt := by decide
  letters := allLetters_of (by decide)

/-- A flip in the payload, in the checksum, in a type byte that stays a letter and in one that does not. -/
theorem witness_FlippedTypePayloadOrChecksumBitIsCaught :
    GoodRecord record 42 ruSt msg ∧
    (∀ p ∈ [(8, 0), (49, 7), (50, 7), (53, 0), (4, 5), (7, 7)], p.1 < 12 + 42 ∧ p.2 < 8 ∧
      (withIbuf (flipBit record p.1 p.2)).ibuf = flipBit record p.1 p.2) ∧
    ((withIbuf (flipBit record 4 5)).ibuf[4]? = some 0x72#8 ∧ Letter 0x72#8) ∧
    ((withIbuf (flipBit record 7 7)).ibuf[7]? = some 0xF4#8 ∧ ¬ Letter 0xF4#8) :=
  ⟨record_good, by decide +kernel, by decide +kernel, by decide +kernel⟩

/-- A record of type "RuSt" whose payload is the checksum of its type alone: with the length bit of 4
flipped, the payload's bytes are read as the checksum of the empty payload. -/
def coincidence : List Byte :=
  [0x00, 0x00, 0x00, 0x04] ++ ruSt.toList ++ [0xD4, 0x84, 0x09, 0x3C] ++ [0xFB, 0x9E, 0xB2, 0x54]

theorem coincidence_good : GoodRecord coincidence 4 ruSt [0xD4, 0x84, 0x09, 0x3C] where
  bytes := by decide +kernel
  len_eq := by decide
  len_lt := by decide
  letters := allLetters_of (by decide)

/-- Length bits that grow by 1, by 4 and by 16, and one that shrinks with the checksums different
(42 = 0b101010). -/
theorem witness_FlippedLengthBitMovesTheWindow :
    GoodRecord record 42 ruSt msg ∧ (withIbuf (flipBit record 3 0)).ibuf = flipBit record 3 0 ∧
    ((42).testBit (8 * (3 - 3) + 0) = false ∧ 2 ^ (8 * (3 - 3) + 0) ≤ 4) ∧
    ((42).testBit (8 * (3 - 3) + 2) = false ∧ 2 ^ (8 * (3 - 3) + 2) ≤ 4) ∧
    ((42).testBit (8 * (3 - 3) + 4) = false ∧ 4 < 2 ^ (8 * (3 - 3) + 4)) ∧
    (42).testBit (8 * (3 - 3) + 1) = true ∧
    Memory.slice (flipBit record 3 1) (8 + 40) 4 = (⟨0x65, 0x21, 0xAB, 0xD1⟩ : Bytes4).toList ∧
    (crc32 (ruSt.toList ++ msg.take 40)).toNat ≠ be32Nat ⟨0x65, 0x21, 0xAB, 0xD1⟩ :=
  ⟨record_good, rfl, by decide, by decide, by decide, by decide, by decide +kernel, by decide +kernel⟩

/-- A length that shrinks from 4 to 0, where the bytes then read as the checksum are that of the shorter span
(42_chunk.md R111: the accidental success). -/
theorem witness_FlippedLengthBitMovesTheWindow_success :
    GoodRecord coincidence 4 ruSt [0xD4, 0x84, 0x09, 0x3C] ∧ (4).testBit (8 * (3 - 3) + 2) = true ∧
    Memory.slice (flipBit coincidence 3 2) (8 + (4 - 2 ^ (8 * (3 - 3) + 2))) 4 =
      (⟨0xD4, 0x84, 0x09, 0x3C⟩ : Bytes4).toList ∧
    (crc32 (ruSt.toList ++ [0xD4#8, 0x84, 0x09, 0x3C].take 0)).toNat = be32Nat ⟨0xD4, 0x84, 0x09, 0x3C⟩ :=
  ⟨coincidence_good, by decide, by decide +kernel, by decide +kernel⟩

theorem witness_OneFlippedBitChangesTheCrc : 45 < (ruSt.toList ++ msg).length ∧ 7 < 8 := by decide

end Sys2Proof.Tests
end

section
/-! The two equations of a step, one per shape of the host's list (00_scope.md R5, 20_memory.md R41), and the
obligation that is their conjunction. -/

namespace Sys2Proof.Machine

/-- Stated with `State.take`, whose fields the `@[simp]` lemmas of the state give. -/
theorem step_of_host_cons {s : State} {a : HostAction} {rest : List HostAction} (h : s.host = a :: rest) :
    step s = runAction a (s.take rest) := by
  simp only [step, runNext, h]

theorem step_of_host_nil {s : State} (h : s.host = []) : step s = .next s := by
  simp only [step, runNext, h]

/-- Settles O8: its two clauses are the two equations of a step, `State.take` written out as a record. -/
theorem stepTakesTheNextHostAction : Obligations.StepTakesTheNextHostAction :=
  ⟨fun _ _ _ h => step_of_host_cons h, fun _ h => step_of_host_nil h⟩

end Sys2Proof.Machine
end

section
/-! The frame of a command, from `exec_ends`: what it leaves alone beside its destination (10_state.md R23). -/

namespace Sys2Proof.Machine

/-! ### Equal outside a destination -/

/-- Two buffers given by length and bytes are one buffer. -/
theorem SameExcept.ibuf_eq {d : Dest} {s t : State} (h : SameExcept d s t) : t.ibuf = s.ibuf :=
  Memory.eq_of_reads h.ibuf.2

theorem SameExcept.obuf_eq {d : Dest} {s t : State} (h : SameExcept d s t) (hd : d ≠ .obuf) :
    t.obuf = s.obuf :=
  Memory.eq_of_reads (h.obuf hd).2

theorem SameExcept.of_eq {d : Dest} {s t : State} (tags : ∀ r, d ≠ .tag r → t.tag r = s.tag r)
    (ck : d ≠ .ck → t.ck = s.ck) (res : d ≠ .res → t.res = s.res) (obuf : d ≠ .obuf → t.obuf = s.obuf)
    (ibuf : t.ibuf = s.ibuf) : SameExcept d s t where
  tags := tags
  ck := ck
  res := res
  obuf hd := by simp [obuf hd]
  ibuf := by simp [ibuf]

/-- A destination other than `d` is empty after exactly when it was empty before. -/
theorem SameExcept.emptyAt_iff {d d' : Dest} {s t : State} (h : SameExcept d s t) (hd : d ≠ d') :
    t.emptyAt d' ↔ s.emptyAt d' := by
  cases d' with
  | tag r => simp only [State.emptyAt, h.tags r hd]
  | ck => simp only [State.emptyAt, h.ck hd]
  | obuf => simp only [State.emptyAt, h.obuf_eq hd]
  | res => simp only [State.emptyAt, h.res hd]
  | nothing => exact Iff.rfl

/-! ### The two ways a command ends -/

@[simp] theorem State.clear_ck_tag (s : State) (r : TagReg) : (s.clear .ck).tag r = s.tag r := by
  cases r <;> rfl

theorem sameExcept_raise (d : Dest) (s : State) (e : Err) : SameExcept d s (s.raise d e) :=
  .of_eq (fun _ hd => State.raise_tag_other s e hd) (State.raise_ck_other s e) (State.raise_res_other s e)
    (State.raise_obuf_other s e) (State.raise_ibuf s d e)

theorem Written.sameExcept_ok {d : Dest} {s t : State} (h : Written d s t) : SameExcept d s t.ok := by
  cases d with
  | tag r =>
    obtain ⟨c, rfl⟩ := h
    have other (q : TagReg) (hq : Dest.tag r ≠ .tag q) : (s.setTag r (some c)).tag q = s.tag q :=
      State.setTag_tag_other s _ fun hqr => hq (hqr ▸ rfl)
    apply SameExcept.of_eq <;> simp +contextual [other]
  | ck => obtain ⟨c, rfl⟩ := h; apply SameExcept.of_eq <;> simp
  | obuf => obtain ⟨m, rfl⟩ := h; apply SameExcept.of_eq <;> simp
  | res => obtain ⟨b, rfl⟩ := h; apply SameExcept.of_eq <;> simp
  | nothing => exact h.elim

theorem Written.host_answer {d : Dest} {s t : State} (h : Written d s t) :
    t.host = s.host ∧ t.answer = s.answer := by
  cases d with
  | tag r => obtain ⟨c, rfl⟩ := h; simp
  | ck => obtain ⟨c, rfl⟩ := h; simp
  | obuf => obtain ⟨m, rfl⟩ := h; simp
  | res => obtain ⟨b, rfl⟩ := h; simp
  | nothing => exact h.elim

/-- An object's register holds one after a success commit on it (10_state.md R11, R13). -/
theorem Written.not_emptyAt_ok {d : Dest} {s t : State} (h : Written d s t) (hd : d = .ck ∨ ∃ r, d = .tag r) :
    ¬ t.ok.emptyAt d := by
  obtain rfl | ⟨r, rfl⟩ := hd
  · obtain ⟨c, rfl⟩ := h; simp [State.emptyAt]
  · obtain ⟨c, rfl⟩ := h; simp [State.emptyAt]

/-- `exec_ends` as an inversion: the state a command answers is an error commit, or a success commit over its
written destination. -/
theorem exec_cases {i : Instr} {s t : State} (h : exec i s = .next t) :
    (∃ e, t = s.raise (destOf i) e) ∨ ∃ u, Written (destOf i) s u ∧ t = u.ok := by
  obtain ⟨e, he⟩ | ⟨u, hu, hok⟩ := exec_ends i s
  · exact .inl ⟨e, Host.Outcome.next.inj (h.symm.trans he)⟩
  · exact .inr ⟨u, hu, Host.Outcome.next.inj (h.symm.trans hok)⟩

/-- No command stops the machine (70_reset_and_hazards.md R145). -/
theorem exec_answers (i : Instr) (s : State) : ∃ t, exec i s = .next t := by
  obtain ⟨e, he⟩ | ⟨u, -, hok⟩ := exec_ends i s
  · exact ⟨_, he⟩
  · exact ⟨_, hok⟩

/-! ### The obligations on the frame -/

/-- Settles O18: each of the two commits of `exec_cases` has the frame. -/
theorem everyCommandChangesOnlyItsDestination : Obligations.EveryCommandChangesOnlyItsDestination := by
  intro i s t h
  obtain ⟨e, rfl⟩ | ⟨u, hu, rfl⟩ := exec_cases h
  · exact sameExcept_raise _ s e
  · exact hu.sameExcept_ok

/-- Settles O19: neither commit writes the two fields of the host's side. -/
theorem commandsLeaveTheHostsSideAlone : Obligations.CommandsLeaveTheHostsSideAlone := by
  intro i s t h
  obtain ⟨e, rfl⟩ | ⟨u, hu, rfl⟩ := exec_cases h
  · exact ⟨State.raise_host s _ e, State.raise_answer s _ e⟩
  · exact hu.host_answer

end Sys2Proof.Machine
end

section
/-! What one step can do, said once (20_memory.md R41), and the obligations about steps that follow: when a
step stops, who writes IBUF, how an object ceases to exist. -/

namespace Sys2Proof.Machine

/-! ### The equations of a host action -/

theorem runAction_cmd_of_decode {w : CmdWord} {i : Instr} (h : decode w = .ok i) (s : State) :
    runAction (.cmd w) s = exec i s := by
  simp [runAction, runCmd, h]

theorem runAction_cmd_of_illegal {w : CmdWord} {e : Illegal} (h : decode w = .error e) (s : State) :
    runAction (.cmd w) s = .next (s.raise .nothing (.illegalCommand w)) := by
  simp [runAction, runCmd, h]

theorem runAction_read_of_some {s : State} {r : HostReg} {v : Word} (h : s.hostReg r = some v) :
    runAction (.read r) s = .next { s with answer := some (.word v) } := by
  simp [runAction, runRead, h]

theorem runAction_read_of_none {s : State} {r : HostReg} (h : s.hostReg r = none) :
    runAction (.read r) s = .fault (.readOfEmptyChunk r) := by
  simp [runAction, runRead, h]

theorem runAction_writeIbuf_of_le {b : Memory} (s : State) (h : b.length ≤ Config.pmax) :
    runAction (.writeIbuf b) s = .next { s with ibuf := b } := by
  simp [runAction, runWriteIbuf, h]

theorem runAction_writeIbuf_of_gt {b : Memory} (s : State) (h : Config.pmax < b.length) :
    runAction (.writeIbuf b) s = .refused (.ibufTooLong b.length) := by
  simp [runAction, runWriteIbuf, Nat.not_le.mpr h]

/-! ### The inversion of a step -/

/-- What a host action on `s` comes to, one constructor per way it can end (20_memory.md R41, R42; 10_state.md
R24; 60_exceptions.md R127). -/
inductive Acts (s : State) : HostAction → Outcome → Prop
  | reset : Acts s .reset (.next { State.reset with host := s.host })
  | writeIbuf {b : Memory} (fits : b.length ≤ Config.pmax) :
    Acts s (.writeIbuf b) (.next { s with ibuf := b })
  | tooLong {b : Memory} (long : Config.pmax < b.length) :
    Acts s (.writeIbuf b) (.refused (.ibufTooLong b.length))
  | command {w : CmdWord} {i : Instr} {t : State} (legal : decode w = .ok i) (run : exec i s = .next t) :
    Acts s (.cmd w) (.next t)
  | illegal {w : CmdWord} {e : Illegal} (illegal : decode w = .error e) :
    Acts s (.cmd w) (.next (s.raise .nothing (.illegalCommand w)))
  | read {r : HostReg} {v : Word} (value : s.hostReg r = some v) :
    Acts s (.read r) (.next { s with answer := some (.word v) })
  | noValue {r : HostReg} (unread : s.hostReg r = none) : Acts s (.read r) (.fault (.readOfEmptyChunk r))
  | readObuf : Acts s .readObuf (.next { s with answer := some (.bytes s.obuf) })

theorem runAction_acts (a : HostAction) (s : State) : Acts s a (runAction a s) := by
  cases a with
  | reset => exact .reset
  | writeIbuf b =>
    by_cases fits : b.length ≤ Config.pmax
    · exact runAction_writeIbuf_of_le s fits ▸ .writeIbuf fits
    · have long := Nat.lt_of_not_le fits
      exact runAction_writeIbuf_of_gt s long ▸ .tooLong long
  | cmd w =>
    cases hw : decode w with
    | ok i =>
      obtain ⟨t, run⟩ := exec_answers i s
      exact (runAction_cmd_of_decode hw s).trans run ▸ .command hw run
    | error e => exact runAction_cmd_of_illegal hw s ▸ .illegal hw
  | read r =>
    cases hr : s.hostReg r with
    | none => exact runAction_read_of_none hr ▸ .noValue hr
    | some v => exact runAction_read_of_some hr ▸ .read hr
  | readObuf => exact .readObuf

/-- A step is idle, or it is what the host's next action comes to. -/
theorem step_cases {s : State} {o : Outcome} (h : step s = o) :
    (s.host = [] ∧ o = .next s) ∨ ∃ a rest, s.host = a :: rest ∧ Acts (s.take rest) a o := by
  subst h
  cases hh : s.host with
  | nil => exact .inl ⟨rfl, step_of_host_nil hh⟩
  | cons a rest => exact .inr ⟨a, rest, rfl, step_of_host_cons hh ▸ runAction_acts a _⟩

/-! ### When a step stops -/

/-- The host-visible registers without a value (10_state.md R24). -/
theorem hostReg_eq_none_iff {s : State} {r : HostReg} :
    s.hostReg r = none ↔ s.ck = none ∧ (r = .cklen ∨ r = .ckcrc) := by
  cases r <;> simp [State.hostReg]

@[simp] theorem State.take_hostReg (s : State) (rest : List HostAction) (r : HostReg) :
    (s.take rest).hostReg r = s.hostReg r := by cases r <;> rfl

theorem step_fault_iff {s : State} :
    (∃ f, step s = .fault f) ↔ ∃ r rest, s.host = .read r :: rest ∧ s.hostReg r = none := by
  constructor
  · rintro ⟨f, h⟩
    obtain ⟨-, ho⟩ | ⟨a, rest, hh, ha⟩ := step_cases h
    · cases ho
    · cases ha with
      | noValue unread => exact ⟨_, rest, hh, by simpa using unread⟩
  · rintro ⟨r, rest, hh, hr⟩
    exact ⟨_, (step_of_host_cons hh).trans (runAction_read_of_none (by simpa using hr))⟩

theorem step_refused_iff {s : State} :
    (∃ q, step s = .refused q) ↔ ∃ b rest, s.host = .writeIbuf b :: rest ∧ Config.pmax < b.length := by
  constructor
  · rintro ⟨q, h⟩
    obtain ⟨-, ho⟩ | ⟨a, rest, hh, ha⟩ := step_cases h
    · cases ho
    · cases ha with
      | tooLong long => exact ⟨_, rest, hh, long⟩
  · rintro ⟨b, rest, hh, long⟩
    exact ⟨_, (step_of_host_cons hh).trans (runAction_writeIbuf_of_gt _ long)⟩

/-- Settles O15: a fault is the read of a register without a value, and `hostReg_eq_none_iff` says which those
are. -/
theorem stepStopsOnlyOnTheTwoHostActions : Obligations.StepStopsOnlyOnTheTwoHostActions := by
  refine fun s => ⟨step_fault_iff.trans ⟨?_, ?_⟩, step_refused_iff⟩
  · rintro ⟨r, rest, hh, hr⟩
    obtain ⟨hck, rfl | rfl⟩ := hostReg_eq_none_iff.mp hr
    · exact ⟨hck, rest, .inl hh⟩
    · exact ⟨hck, rest, .inr hh⟩
  · rintro ⟨hck, rest, hh | hh⟩
    · exact ⟨_, rest, hh, hostReg_eq_none_iff.mpr ⟨hck, .inl rfl⟩⟩
    · exact ⟨_, rest, hh, hostReg_eq_none_iff.mpr ⟨hck, .inr rfl⟩⟩

/-! ### Who writes IBUF, and how an object ceases -/

/-- Settles O23: of the ways a step can end, only the two named change IBUF. -/
theorem onlyTheHostWritesIbuf : Obligations.OnlyTheHostWritesIbuf := by
  intro s t h hne
  obtain ⟨-, ho⟩ | ⟨a, rest, hh, ha⟩ := step_cases h
  · cases ho
    exact absurd rfl hne
  · cases ha with
    | reset => exact ⟨rest, .inl hh⟩
    | writeIbuf fits => exact ⟨rest, .inr hh⟩
    | command legal run => exact absurd (everyCommandChangesOnlyItsDestination _ _ _ run).ibuf_eq hne
    | illegal => exact absurd (State.raise_ibuf _ _ _) hne
    | read => exact absurd rfl hne
    | readObuf => exact absurd rfl hne

theorem State.hostSide_tag (s : State) (b : Memory) (l : List HostAction) (v : Option HostAnswer)
    (r : TagReg) :
    ({ s with ibuf := b, host := l, answer := v } : State).tag r = s.tag r := by
  cases r <;> rfl

/-- No destination is on the host's side: IBUF, the host's list or its answer. -/
theorem State.hostSide_emptyAt (s : State) (b : Memory) (l : List HostAction) (v : Option HostAnswer)
    (d : Dest) :
    ({ s with ibuf := b, host := l, answer := v } : State).emptyAt d ↔ s.emptyAt d := by
  cases d with
  | tag r => simp only [State.emptyAt, State.hostSide_tag]
  | ck | obuf | res | nothing => exact Iff.rfl

/-- A command that leaves an object's register empty, which was not, names it and failed (10_state.md
R11, R13). -/
theorem exec_emptied {i : Instr} {s t : State} {d : Dest} (hd : d = .ck ∨ ∃ r, d = .tag r)
    (h : exec i s = .next t) (before : ¬ s.emptyAt d) (after : t.emptyAt d) :
    destOf i = d ∧ t.status ≠ 0#32 := by
  have hdest : destOf i = d := by
    by_contra hne
    exact before (((everyCommandChangesOnlyItsDestination i s t h).emptyAt_iff hne).mp after)
  refine ⟨hdest, ?_⟩
  obtain ⟨e, rfl⟩ | ⟨u, hu, rfl⟩ := exec_cases h
  · exact statusWord_ne_zero e
  · exact absurd (hdest ▸ after) (hu.not_emptyAt_ok (hdest ▸ hd))

/-- Settles O24: a reset, or by `exec_emptied` the command; no other action touches an object's register. -/
theorem objectsCeaseOnlyByResetOrError : Obligations.ObjectsCeaseOnlyByResetOrError := by
  intro s t d hd h before after
  obtain ⟨-, ho⟩ | ⟨a, rest, hh, ha⟩ := step_cases h
  · cases ho
    exact absurd after before
  · cases ha with
    | reset => exact ⟨rest, .inl hh⟩
    | command legal run =>
      have before' : ¬ (s.take rest).emptyAt d := mt (State.hostSide_emptyAt s _ _ _ d).mp before
      exact ⟨rest, .inr ⟨_, _, hh, legal, exec_emptied hd run before' after⟩⟩
    | illegal =>
      have other : Dest.nothing ≠ d := by rintro rfl; simp at hd
      have taken := ((sameExcept_raise .nothing (s.take rest) _).emptyAt_iff other).mp after
      exact absurd ((State.hostSide_emptyAt s _ _ _ d).mp taken) before
    | writeIbuf fits => exact absurd ((State.hostSide_emptyAt s _ _ _ d).mp after) before
    | read => exact absurd ((State.hostSide_emptyAt s _ _ _ d).mp after) before
    | readObuf => exact absurd ((State.hostSide_emptyAt s _ _ _ d).mp after) before

end Sys2Proof.Machine
end

section
/-! The invariant of the block's state (10_state.md R12, R14, R16, R17, R18): it holds at reset and every step
keeps it. A command keeps what is outside its destination by its frame, so its own work is to leave something
well-formed there, said per command in `exec_destInv`. -/

namespace Sys2Proof.Machine

/-! ### What the invariant asks of one destination -/

/-- The part of `State.Inv` that speaks of the destination `d` (10_state.md R12, R14, R18). -/
def State.InvAt (t : State) : Dest → Prop
  | .tag r => ∀ c, t.tag r = some c → Bytes4.wellFormed c = true
  | .ck => ∀ c, t.ck = some c → c.Inv
  | .obuf => Memory.wf (Config.pmax + 12) t.obuf = true
  | .res => True
  | .nothing => True

/-- Whatever state `o` answers, its destination `d` is well-formed there. -/
def DestInv (d : Dest) (o : Outcome) : Prop := ∀ t, o = .next t → t.InvAt d

theorem DestInv.next {d : Dest} {t : State} (h : t.InvAt d) : DestInv d (.next t) := by
  rintro _ ⟨⟩
  exact h

/-- The error commit leaves the destination empty (60_exceptions.md R121). -/
theorem DestInv.raise (d : Dest) (s : State) (e : Err) : DestInv d (.next (s.raise d e)) := by
  apply DestInv.next
  cases d with
  | tag r => intro c hc; simp [State.raise, State.clear] at hc
  | ck => intro c hc; simp [State.raise, State.clear] at hc
  | obuf => exact Memory.wf_nil _
  | res | nothing => trivial

theorem DestInv.withTag {d : Dest} {r : TagReg} {s : State} {go : Bytes4 → Outcome}
    (h : ∀ c, s.tag r = some c → DestInv d (go c)) : DestInv d (withTag d r s go) := by
  obtain ⟨-, hw⟩ | ⟨c, hc, hw⟩ := withTag_cases d r s go
  · exact hw ▸ DestInv.raise d s _
  · exact hw ▸ h c hc

theorem DestInv.withChunk {d : Dest} {s : State} {go : Chunk → Outcome}
    (h : ∀ c, s.ck = some c → DestInv d (go c)) : DestInv d (withChunk d s go) := by
  obtain ⟨-, hw⟩ | ⟨c, hc, hw⟩ := withChunk_cases d s go
  · exact hw ▸ DestInv.raise d s _
  · exact hw ▸ h c hc

theorem DestInv.setTag {r : TagReg} {c : Bytes4} (s : State) (h : Bytes4.wellFormed c = true) :
    DestInv (.tag r) (.next (s.setTag r (some c)).ok) :=
  .next fun c' hc' => by simp at hc'; exact hc' ▸ h

theorem DestInv.setChunk {c : Chunk} (s : State) (h : c.Inv) : DestInv .ck (.next (s.setChunk c).ok) :=
  .next fun c' hc' => by simp at hc'; exact hc' ▸ h

theorem DestInv.setObuf {m : Memory} (s : State) (h : Memory.wf (Config.pmax + 12) m = true) :
    DestInv .obuf (.next (s.setObuf m).ok) := .next h

theorem DestInv.res (o : Outcome) : DestInv .res o := fun _ _ => trivial

/-! ### What the commands write -/

theorem countWord_toNat {n : Nat} (h : n < 2 ^ 32) : (countWord n).toNat = n := by
  simpa [countWord] using h

/-- The chunk that CHUNK.NEW makes has the four invariants (42_chunk.md R100, 10_state.md R14). -/
theorem newChunk_inv {ty : Bytes4} {b : Memory} (hty : Bytes4.wellFormed ty = true)
    (hb : Memory.wf Config.pmax b = true) : Chunk.Inv ⟨countWord b.length, ty, b, spanCrc ty b⟩ where
  length_eq := countWord_toNat (Nat.lt_of_le_of_lt (Memory.wf_iff.mp hb) pmax_lt)
  crc_eq := rfl
  type_letters := hty
  fits := hb

/-- What CHUNK.DECODE parses has the four invariants (42_chunk.md R101, 10_state.md R14). -/
theorem parsedChunk_inv {b : Memory} {c : Chunk} (hb : Memory.wf Config.pmax b = true)
    (h : parseRecord b = .ok c) : c.Inv := by
  obtain ⟨tail, rfl, hlen, hcrc, hletters⟩ := parseRecord_ok h
  refine ⟨hlen, hcrc, (wellFormed_iff_scan c.type).mpr hletters, Memory.wf_iff.mpr ?_⟩
  have := Memory.wf_iff.mp hb
  rw [List.length_append, Chunk.record_length] at this
  omega

theorem copyTagOut_destInv (ta : TagReg) (s : State) : DestInv .obuf (copyTagOut ta s) :=
  .withTag fun c _ => .setObuf s (Memory.wf_bytes4 c)

theorem execTagFromBytes_destInv (td : TagReg) (imm : Word) (s : State) :
    DestInv (.tag td) (execTagFromBytes td imm s) := by
  unfold execTagFromBytes
  split
  · exact .raise _ s _
  · rename_i letters
    exact .setTag s ((wellFormed_iff_scan _).mpr letters)

theorem execTagFromText_destInv (td : TagReg) (s : State) : DestInv (.tag td) (execTagFromText td s) := by
  unfold execTagFromText
  split
  · exact .raise _ s _
  · rename_i letters
    split
    · exact .raise _ s _
    · rename_i c four
      rw [bytes4_eq_some.mp four] at letters
      exact .setTag s ((wellFormed_iff_scan c).mpr letters)

theorem execChunkDecode_destInv {s : State} (h : s.Inv) : DestInv .ck (execChunkDecode s) := by
  unfold execChunkDecode
  split
  · exact .raise _ s _
  · rename_i parsed
    exact .setChunk s (parsedChunk_inv h.ibuf_fits parsed)

theorem execChunkText_destInv {s : State} (h : s.Inv) : DestInv .obuf (execChunkText s) :=
  .withChunk fun c hc => by
    split
    · exact .setObuf s (Memory.wf_obuf_of_ibuf (h.chunk c hc).fits)
    · exact .raise _ s _

/-- Every command leaves its own destination well-formed. -/
theorem exec_destInv (i : Instr) {s : State} (h : s.Inv) : DestInv (destOf i) (exec i s) := by
  cases i with
  | tagFromBytes td imm => exact execTagFromBytes_destInv td imm s
  | tagFromText td => exact execTagFromText_destInv td s
  | tagIsCritical | tagIsPublic | tagIsResValid | tagIsSafe | tagIsValid | tagEq => exact .res _
  | tagBytes ta => exact copyTagOut_destInv ta s
  | tagText ta => exact copyTagOut_destInv ta s
  | chunkNew ta => exact .withTag fun ty hty => .setChunk s (newChunk_inv (h.tags ta ty hty) h.ibuf_fits)
  | chunkDecode => exact execChunkDecode_destInv h
  | chunkEncode => exact .withChunk fun c hc => .setObuf s (Chunk.record_fits (h.chunk c hc).fits)
  | chunkText => exact execChunkText_destInv h
  | chunkType td => exact .withChunk fun c hc => .setTag s (h.chunk c hc).type_letters
  | chunkPayload => exact .withChunk fun c hc => .setObuf s (Memory.wf_obuf_of_ibuf (h.chunk c hc).fits)

/-! ### Every step keeps the invariant -/

/-- The outcome words are one of the pairs that R16 and R17 allow. -/
structure OutcomeInv (t : State) : Prop where
  status_value : t.status ∈ statusValues
  no_detail_after_ok : t.status = 0#32 → t.errd0 = 0#32 ∧ t.errd1 = 0#32

theorem raise_outcomeInv (s : State) (d : Dest) (e : Err) : OutcomeInv (s.raise d e) where
  status_value := statusWord_mem e
  no_detail_after_ok h := absurd h (statusWord_ne_zero e)

theorem ok_outcomeInv (s : State) : OutcomeInv s.ok where
  status_value := by simp [statusValues]
  no_detail_after_ok _ := ⟨rfl, rfl⟩

theorem exec_outcomeInv {i : Instr} {s t : State} (h : exec i s = .next t) : OutcomeInv t := by
  obtain ⟨e, rfl⟩ | ⟨u, -, rfl⟩ := exec_cases h
  · exact raise_outcomeInv s _ e
  · exact ok_outcomeInv u

/-- The invariant from its parts: the frame of `d`, `d` itself and the outcome words. -/
theorem State.Inv.of_frame {d : Dest} {s t : State} (h : s.Inv) (frame : SameExcept d s t)
    (dest : t.InvAt d) (outcome : OutcomeInv t) : t.Inv where
  tags r c hc := by
    by_cases hd : d = .tag r
    · subst hd; exact dest c hc
    · exact h.tags r c (frame.tags r hd ▸ hc)
  chunk c hc := by
    by_cases hd : d = .ck
    · subst hd; exact dest c hc
    · exact h.chunk c (frame.ck hd ▸ hc)
  ibuf_fits := frame.ibuf_eq ▸ h.ibuf_fits
  obuf_fits := by
    by_cases hd : d = .obuf
    · subst hd; exact dest
    · exact frame.obuf_eq hd ▸ h.obuf_fits
  status_value := outcome.status_value
  no_detail_after_ok := outcome.no_detail_after_ok

theorem exec_keeps_inv {i : Instr} {s t : State} (h : s.Inv) (run : exec i s = .next t) : t.Inv :=
  h.of_frame (everyCommandChangesOnlyItsDestination i s t run) (exec_destInv i h t run) (exec_outcomeInv run)

/-- On the host's side the invariant asks only that IBUF fits. -/
theorem State.Inv.hostSide {s : State} (h : s.Inv) {b : Memory} (hb : Memory.wf Config.pmax b = true)
    (l : List HostAction) (v : Option HostAnswer) :
    ({ s with ibuf := b, host := l, answer := v } : State).Inv where
  tags r c hc := h.tags r c (s.hostSide_tag b l v r ▸ hc)
  chunk := h.chunk
  ibuf_fits := hb
  obuf_fits := h.obuf_fits
  status_value := h.status_value
  no_detail_after_ok := h.no_detail_after_ok

/-- Settles O16: no object exists, both buffers are empty and the outcome words are those of a success. -/
theorem resetStateMeetsTheInvariants : Obligations.ResetStateMeetsTheInvariants where
  tags r c hc := by cases r <;> cases hc
  chunk c hc := by cases hc
  ibuf_fits := reset_ibuf_wf
  obuf_fits := reset_obuf_wf
  status_value := by simp [State.reset, statusValues]
  no_detail_after_ok _ := ⟨rfl, rfl⟩

/-- Settles O17, by the ways a step can end. -/
theorem everyStepKeepsTheInvariants : Obligations.EveryStepKeepsTheInvariants := by
  intro s t h hstep
  obtain ⟨-, ho⟩ | ⟨a, rest, -, ha⟩ := step_cases hstep
  · cases ho
    exact h
  · have taken : (s.take rest).Inv := h.hostSide h.ibuf_fits rest none
    cases ha with
    | reset => exact State.Inv.hostSide resetStateMeetsTheInvariants reset_ibuf_wf _ _
    | writeIbuf fits => exact taken.hostSide (Memory.wf_iff.mpr fits) _ _
    | command _ run => exact exec_keeps_inv taken run
    | illegal =>
      exact taken.of_frame (sameExcept_raise .nothing _ _) trivial (raise_outcomeInv _ _ _)
    | read => exact taken.hostSide taken.ibuf_fits _ _
    | readObuf => exact taken.hostSide taken.ibuf_fits _ _

end Sys2Proof.Machine
end

section
/-! No command depends on RES, STATUS, ERRD0 or ERRD1 (10_state.md R20): from two states with the same inputs
each way a command ends comes to states that agree, so each command does. -/

namespace Sys2Proof.Claims

open Sys2Proof.Machine

section
variable {s s' : State} (h : SameInputs s s')
include h

theorem SameInputs.tag_eq (r : TagReg) : s'.tag r = s.tag r := h.1 r

theorem SameInputs.ck_eq : s'.ck = s.ck := h.2.1

theorem SameInputs.ibuf_eq : s'.ibuf = s.ibuf := h.2.2.1

theorem SameInputs.obuf_eq : s'.obuf = s.obuf := h.2.2.2

theorem SameInputs.setTag (r : TagReg) (v : Option Bytes4) : SameInputs (s.setTag r v) (s'.setTag r v) := by
  refine ⟨fun q => ?_, by simpa using h.ck_eq, by simpa using h.ibuf_eq, by simpa using h.obuf_eq⟩
  by_cases hq : q = r
  · simp [hq]
  · simp [State.setTag_tag_other _ v hq, h.tag_eq q]

theorem SameInputs.setChunk (c : Chunk) : SameInputs (s.setChunk c) (s'.setChunk c) :=
  ⟨fun r => by simpa using h.tag_eq r, rfl, h.ibuf_eq, h.obuf_eq⟩

theorem SameInputs.setObuf (m : Memory) : SameInputs (s.setObuf m) (s'.setObuf m) :=
  ⟨fun r => by simpa using h.tag_eq r, h.ck_eq, h.ibuf_eq, rfl⟩

theorem SameInputs.setRes (b : Bool) : SameInputs (s.setRes b) (s'.setRes b) :=
  ⟨fun r => by simpa using h.tag_eq r, h.ck_eq, h.ibuf_eq, h.obuf_eq⟩

theorem SameInputs.setOutcome (st d0 d1 : Word) :
    SameInputs (s.setOutcome st d0 d1) (s'.setOutcome st d0 d1) :=
  ⟨fun r => by simpa using h.tag_eq r, h.ck_eq, h.ibuf_eq, h.obuf_eq⟩

theorem SameInputs.clear (d : Dest) : SameInputs (s.clear d) (s'.clear d) := by
  cases d with
  | tag r => exact h.setTag r none
  | ck => exact ⟨fun r => by simpa using h.tag_eq r, rfl, h.ibuf_eq, h.obuf_eq⟩
  | obuf => exact h.setObuf []
  | res => exact h.setRes false
  | nothing => exact h

end

end Sys2Proof.Claims

namespace Sys2Proof.Machine

open Sys2Proof.Claims

/-- The two outcomes are next states with the same tags, chunk, buffers and outcome words, and the same RES
where it is the destination. -/
def Agree (d : Dest) (o o' : Outcome) : Prop :=
  ∃ t t', o = .next t ∧ o' = .next t' ∧ SameInputs t t' ∧ t'.status = t.status ∧ t'.errd0 = t.errd0 ∧
    t'.errd1 = t.errd1 ∧ (d = .res → t'.res = t.res)

section
variable {s s' : State} (h : SameInputs s s')
include h

theorem Agree.setOutcome {d : Dest} (hres : d = .res → s'.res = s.res) (st d0 d1 : Word) :
    Agree d (.next (s.setOutcome st d0 d1)) (.next (s'.setOutcome st d0 d1)) :=
  ⟨_, _, rfl, rfl, h.setOutcome st d0 d1, rfl, rfl, rfl, hres⟩

theorem Agree.raise (d : Dest) (e : Err) : Agree d (.next (s.raise d e)) (.next (s'.raise d e)) :=
  Agree.setOutcome (h.clear d) (by rintro rfl; rfl) _ _ _

theorem Agree.ok {d : Dest} (hres : d = .res → s'.res = s.res) : Agree d (.next s.ok) (.next s'.ok) :=
  Agree.setOutcome h hres _ _ _

theorem Agree.withTag {d : Dest} {r : TagReg} {go go' : Bytes4 → Outcome}
    (hgo : ∀ c, Agree d (go c) (go' c)) :
    Agree d (withTag d r s go) (withTag d r s' go') := by
  cases hc : s.tag r with
  | none => rw [withTag_none go hc, withTag_none go' ((h.tag_eq r).trans hc)]; exact Agree.raise h d _
  | some c => rw [withTag_some go hc, withTag_some go' ((h.tag_eq r).trans hc)]; exact hgo c

theorem Agree.withChunk {d : Dest} {go go' : Chunk → Outcome} (hgo : ∀ c, Agree d (go c) (go' c)) :
    Agree d (withChunk d s go) (withChunk d s' go') := by
  cases hc : s.ck with
  | none => rw [withChunk_none go hc, withChunk_none go' (h.ck_eq.trans hc)]; exact Agree.raise h d _
  | some c => rw [withChunk_some go hc, withChunk_some go' (h.ck_eq.trans hc)]; exact hgo c

theorem Agree.tagOk (r : TagReg) (c : Bytes4) :
    Agree (.tag r) (.next (s.setTag r (some c)).ok) (.next (s'.setTag r (some c)).ok) :=
  Agree.ok (h.setTag r _) nofun

theorem Agree.chunkOk (c : Chunk) : Agree .ck (.next (s.setChunk c).ok) (.next (s'.setChunk c).ok) :=
  Agree.ok (h.setChunk c) nofun

theorem Agree.obufOk (m : Memory) : Agree .obuf (.next (s.setObuf m).ok) (.next (s'.setObuf m).ok) :=
  Agree.ok (h.setObuf m) nofun

theorem Agree.resOk (b : Bool) : Agree .res (.next (s.setRes b).ok) (.next (s'.setRes b).ok) :=
  Agree.ok (h.setRes b) fun _ => rfl

theorem queryTag_agree (property : Bytes4 → Bool) (ta : TagReg) :
    Agree .res (queryTag property ta s) (queryTag property ta s') :=
  Agree.withTag h fun _ => Agree.resOk h _

theorem copyTagOut_agree (ta : TagReg) : Agree .obuf (copyTagOut ta s) (copyTagOut ta s') :=
  Agree.withTag h fun _ => Agree.obufOk h _

theorem execTagFromBytes_agree (td : TagReg) (imm : Word) :
    Agree (.tag td) (execTagFromBytes td imm s) (execTagFromBytes td imm s') := by
  unfold execTagFromBytes
  split
  · exact Agree.raise h _ _
  · exact Agree.tagOk h td _

theorem execTagFromText_agree (td : TagReg) :
    Agree (.tag td) (execTagFromText td s) (execTagFromText td s') := by
  unfold execTagFromText
  rw [h.ibuf_eq]
  split
  · exact Agree.raise h _ _
  · split
    · exact Agree.raise h _ _
    · exact Agree.tagOk h td _

theorem execChunkNew_agree (ta : TagReg) : Agree .ck (execChunkNew ta s) (execChunkNew ta s') := by
  unfold execChunkNew
  rw [h.ibuf_eq]
  exact Agree.withTag h fun _ => Agree.chunkOk h _

theorem execChunkDecode_agree : Agree .ck (execChunkDecode s) (execChunkDecode s') := by
  unfold execChunkDecode
  rw [h.ibuf_eq]
  split
  · exact Agree.raise h _ _
  · exact Agree.chunkOk h _

theorem execChunkText_agree : Agree .obuf (execChunkText s) (execChunkText s') :=
  Agree.withChunk h fun _ => by
    split
    · exact Agree.obufOk h _
    · exact Agree.raise h _ _

/-- Every command comes to agreeing outcomes from two states with the same inputs. -/
theorem exec_agree (i : Instr) : Agree (destOf i) (exec i s) (exec i s') := by
  cases i with
  | tagFromBytes td imm => exact execTagFromBytes_agree h td imm
  | tagFromText td => exact execTagFromText_agree h td
  | tagIsCritical ta => exact queryTag_agree h _ ta
  | tagIsPublic ta => exact queryTag_agree h _ ta
  | tagIsResValid ta => exact queryTag_agree h _ ta
  | tagIsSafe ta => exact queryTag_agree h _ ta
  | tagIsValid ta => exact queryTag_agree h _ ta
  | tagBytes ta => exact copyTagOut_agree h ta
  | tagText ta => exact copyTagOut_agree h ta
  | tagEq ta tb => exact Agree.withTag h fun _ => Agree.withTag h fun _ => Agree.resOk h _
  | chunkNew ta => exact execChunkNew_agree h ta
  | chunkDecode => exact execChunkDecode_agree h
  | chunkEncode => exact Agree.withChunk h fun _ => Agree.obufOk h _
  | chunkText => exact execChunkText_agree h
  | chunkType td => exact Agree.withChunk h fun _ => Agree.tagOk h td _
  | chunkPayload => exact Agree.withChunk h fun _ => Agree.obufOk h _

end

/-- Settles O22, which names the first of the two agreeing states. -/
theorem commandsDoNotReadTheOutcomeRegisters : Obligations.CommandsDoNotReadTheOutcomeRegisters := by
  intro i s s' t h run
  obtain ⟨t₁, t', run₁, run', agree⟩ := exec_agree h i
  obtain rfl := Host.Outcome.next.inj (run.symm.trans run₁)
  exact ⟨t', run', agree⟩

end Sys2Proof.Machine
end

section
/-! Tags under the invariant: each property is bit 5 of its byte (30_encoding.md R52), and the rendered text
constructs its tag again (41_typetag.md R90). -/

namespace Sys2Proof.Machine

open Sys2Proof.Claims

theorem bit_eq_ofBool (p : Prop) [Decidable p] : bit p = BitVec.ofBool (decide p) := by
  by_cases h : p <;> simp [bit, h]

/-- Bit 5 of a byte as arithmetic on its value. -/
theorem getLsbD_five (b : Byte) : b.getLsbD 5 = decide (b.toNat / 32 % 2 = 1) := by
  rw [BitVec.getLsbD, Nat.testBit_eq_decide_div_mod_eq]

/-- Among letters bit 5 tells lowercase from uppercase: the two ranges of R80 lie 0x20 apart. -/
theorem isUpper_eq_bitFive {b : Byte} (h : isAlpha b = true) : isUpper b = decide (b.getLsbD 5 = false) := by
  rw [isAlpha_iff] at h
  rw [Bool.eq_iff_iff, isUpper_iff, getLsbD_five]
  simp only [decide_eq_false_iff_not, decide_eq_true_eq]
  omega

theorem isLower_eq_bitFive {b : Byte} (h : isAlpha b = true) : isLower b = decide (b.getLsbD 5 = true) := by
  rw [isAlpha_iff] at h
  rw [Bool.eq_iff_iff, isLower_iff, getLsbD_five]
  simp only [decide_eq_true_eq]
  omega

theorem wellFormed_letters {c : Bytes4} (h : Bytes4.wellFormed c = true) :
    isAlpha c.b0 = true ∧ isAlpha c.b1 = true ∧ isAlpha c.b2 = true ∧ isAlpha c.b3 = true := by
  simpa [Bytes4.wellFormed, Bytes4.toList] using h

/-- A query of a register that holds a tag answers its property in RES (41_typetag.md section 3). -/
theorem queryTag_answers {i : Instr} {property : Bytes4 → Bool} {ta : TagReg} {s : State} {c : Bytes4}
    {p : Prop} [Decidable p] (hi : exec i s = queryTag property ta s) (hdest : destOf i = .res) (hc : s.tag ta = some c)
    (hp : property c = decide p) : Answers i s .res 0 0 0 (fun t => t.res = bit p) := by
  have run : exec i s = .next (s.setRes (property c)).ok := hi.trans (withTag_some _ hc)
  refine ⟨_, run, hdest ▸ everyCommandChangesOnlyItsDestination i s _ run, rfl, rfl, rfl, ?_⟩
  rw [bit_eq_ofBool, ← hp]
  rfl

/-- Settles O28: the letters of the tag come from the invariant. -/
theorem propertiesAreBitFiveOfTheirByte : Obligations.PropertiesAreBitFiveOfTheirByte := by
  intro ta s c hinv hc
  obtain ⟨h0, h1, h2, h3⟩ := wellFormed_letters (hinv.tags ta c hc)
  exact ⟨queryTag_answers rfl rfl hc (isUpper_eq_bitFive h0),
    queryTag_answers rfl rfl hc (isUpper_eq_bitFive h1),
    queryTag_answers rfl rfl hc (isUpper_eq_bitFive h2),
    queryTag_answers rfl rfl hc (isLower_eq_bitFive h3)⟩

theorem exec_tagText_of_some {s : State} {ta : TagReg} {c : Bytes4} (h : s.tag ta = some c) :
    exec (.tagText ta) s = .next (s.setObuf c.toList).ok := withTag_some _ h

/-- TAG.FROMTEXT of four letters constructs the tag of just these bytes (41_typetag.md R82). -/
theorem exec_tagFromText_of_code {s : State} {c : Bytes4} (td : TagReg) (hs : s.ibuf = c.toList)
    (hc : Bytes4.wellFormed c = true) : exec (.tagFromText td) s = .next (s.setTag td (some c)).ok := by
  simp [exec, execTagFromText, hs, (wellFormed_iff_scan c).mp hc]

/-- Settles O32: the text is the four letters of the code, which fit IBUF. -/
theorem textOfATagConstructsItAgain : Obligations.TextOfATagConstructsItAgain := by
  intro ta td s t c hinv hc run
  obtain rfl := Host.Outcome.next.inj (run.symm.trans (exec_tagText_of_some hc))
  have fits : c.toList.length ≤ Config.pmax := Nat.le_trans (by simp) pmax_ge
  exact ⟨_, _, runAction_writeIbuf_of_le _ fits,
    exec_tagFromText_of_code td rfl (hinv.tags ta c hc), rfl, by simp⟩

end Sys2Proof.Machine
end

section
/-! The round trip of a chunk through its wire record (42_chunk.md R109). -/

namespace Sys2Proof.Machine

/-- The record of a chunk with its four invariants parses to that chunk (42_chunk.md R101, R102). -/
theorem parseRecord_record {c : Chunk} (h : c.Inv) : parseRecord c.record = .ok c := by
  have layout : c.record = (be32bytes c.length).toList ++ c.type.toList ++
      (c.payload ++ (be32bytes c.crc).toList ++ []) := by simp [Chunk.record]
  have span : crc32 (c.type.toList ++ c.payload) = c.crc := h.crc_eq.symm
  rw [layout, parseRecord_fields, (wellFormed_iff_scan c.type).mp h.type_letters]
  simp only [be32_be32bytes]
  rw [if_neg (by simp [h.length_eq]), parseChecksum_full _ _ _ _ _ _ h.length_eq.symm,
    be32_be32bytes, if_pos span]

theorem exec_chunkEncode_of_some {s : State} {c : Chunk} (h : s.ck = some c) :
    exec .chunkEncode s = .next (s.setObuf c.record).ok := withChunk_some _ h

theorem exec_chunkDecode_of_record {s : State} {c : Chunk} (hs : s.ibuf = c.record) (h : c.Inv) :
    exec .chunkDecode s = .next (s.setChunk c).ok := by
  simp [exec, execChunkDecode, hs, parseRecord_record h]

theorem exec_chunkNew_of_some {s : State} {ta : TagReg} {ty : Bytes4} (h : s.tag ta = some ty) :
    exec (.chunkNew ta) s =
      .next (s.setChunk ⟨countWord s.ibuf.length, ty, s.ibuf, spanCrc ty s.ibuf⟩).ok := withTag_some _ h

/-- Encode, present the output, decode: the same chunk, wherever its record fits IBUF. -/
theorem chunk_roundTrip {s : State} {c : Chunk} (hc : s.ck = some c) (h : c.Inv)
    (fits : 12 + c.payload.length ≤ Config.pmax) :
    ∃ t u v, exec .chunkEncode s = .next t ∧ runAction (.writeIbuf t.obuf) t = .next u ∧
      exec .chunkDecode u = .next v ∧ v.status = 0#32 ∧ v.ck = some c := by
  have recordFits : c.record.length ≤ Config.pmax := by rwa [Chunk.record_length]
  exact ⟨_, _, _, exec_chunkEncode_of_some hc, runAction_writeIbuf_of_le _ recordFits,
    exec_chunkDecode_of_record rfl h, rfl, rfl⟩

/-- Settles O40, both times by `chunk_roundTrip`: the chunk register's chunk has the four invariants
by `State.Inv`, the new chunk by `newChunk_inv`. -/
theorem encodeThenDecodeRestoresTheChunk : Obligations.EncodeThenDecodeRestoresTheChunk := by
  constructor
  · intro s c hinv hc fits
    have h := hinv.chunk c hc
    have encodeWord := runAction_cmd_of_decode (w := 0x2200000000000000#64) (i := .chunkEncode) (by decide)
    have decodeWord := runAction_cmd_of_decode (w := 0x2100000000000000#64) (i := .chunkDecode) (by decide)
    simpa only [encodeWord, decodeWord] using chunk_roundTrip hc h (h.length_eq ▸ fits)
  · intro s ta ty hinv hty fits
    have h := newChunk_inv (hinv.tags ta ty hty) hinv.ibuf_fits
    obtain ⟨t, u, v, encode, write, decode, status, ck⟩ := chunk_roundTrip (s := (s.setChunk _).ok) rfl h fits
    exact ⟨_, t, u, v, _, exec_chunkNew_of_some hty, rfl, encode, write, decode, status, ck, rfl, rfl⟩

end Sys2Proof.Machine
end

section
/-! What the host reads (10_state.md R21, R24), and the state after reset (R25). -/

namespace Sys2Proof.Machine

open Sys2Proof.Claims

/-- Settles O13: CKLEN and CKCRC are the registers without a value, and a buffer ends at its length. -/
theorem readsWithoutAValueGiveNone : Obligations.ReadsWithoutAValueGiveNone := by
  refine fun s => ⟨fun hck => ⟨?_, ?_⟩,
    fun a ha => List.getElem?_eq_none ha, fun a ha => List.getElem?_eq_none ha⟩
  · exact runAction_read_of_none (hostReg_eq_none_iff.mpr ⟨hck, .inl rfl⟩)
  · exact runAction_read_of_none (hostReg_eq_none_iff.mpr ⟨hck, .inr rfl⟩)

/-- The four valid bits of TVALID, T0's the lowest (10_state.md R21). -/
def tvalidWord (b0 b1 b2 b3 : Bool) : Word :=
  (0#28) ++ (BitVec.ofBool b3 ++ (BitVec.ofBool b2 ++ (BitVec.ofBool b1 ++ BitVec.ofBool b0)))

theorem hostReg_tvalid (s : State) : s.hostReg .tvalid =
    some (tvalidWord s.t0.isSome s.t1.isSome s.t2.isSome s.t3.isSome) := rfl

theorem tvalidWord_lt (b0 b1 b2 b3 : Bool) : (tvalidWord b0 b1 b2 b3).toNat < 16 := by
  revert b0 b1 b2 b3
  decide

theorem tvalidWord_bits (b0 b1 b2 b3 : Bool) :
    (tvalidWord b0 b1 b2 b3).getLsbD 0 = b0 ∧ (tvalidWord b0 b1 b2 b3).getLsbD 1 = b1 ∧
      (tvalidWord b0 b1 b2 b3).getLsbD 2 = b2 ∧ (tvalidWord b0 b1 b2 b3).getLsbD 3 = b3 := by
  revert b0 b1 b2 b3
  decide

theorem tvalidWord_getLsbD (s : State) (r : TagReg) :
    (tvalidWord s.t0.isSome s.t1.isSome s.t2.isSome s.t3.isSome).getLsbD (noOf r) = (s.tag r).isSome := by
  obtain ⟨h0, h1, h2, h3⟩ := tvalidWord_bits s.t0.isSome s.t1.isSome s.t2.isSome s.t3.isSome
  cases r with
  | t0 => exact h0
  | t1 => exact h1
  | t2 => exact h2
  | t3 => exact h3

theorem tvalidWord_none : tvalidWord false false false false = 0#32 := by decide

theorem olenWord_toNat {n : Nat} (h : n < 2 ^ 32) : (olenWord n).toNat = n := by
  rw [olenWord, if_pos (by simpa using h), countWord_toNat h]

theorem ckvalid_toNat (b : Bool) : ((BitVec.ofBool b).setWidth 32).toNat = if b then 1 else 0 := by
  cases b <;> rfl

theorem isReset_withHost (l : List HostAction) : IsReset { State.reset with host := l } :=
  ⟨fun r => by cases r <;> rfl, rfl, rfl, rfl, rfl, rfl, rfl, rfl,
    (hostReg_tvalid _).trans (congrArg some tvalidWord_none), rfl, rfl, rfl, rfl, rfl⟩

/-- Settles O9. -/
theorem resetReachesTheResetState : Obligations.ResetReachesTheResetState :=
  ⟨isReset_withHost [], fun s => ⟨_, rfl, isReset_withHost s.host⟩⟩

/-- Settles O11, register by register. -/
theorem hostVisibleRegistersHoldTheirContents : Obligations.HostVisibleRegistersHoldTheirContents := by
  refine fun s => ⟨rfl, rfl, rfl, ⟨_, rfl, ?res⟩,
    ⟨_, hostReg_tvalid s, tvalidWord_lt _ _ _ _, tvalidWord_getLsbD s⟩, ⟨_, rfl, ckvalid_toNat _⟩,
    fun c hc => ?chunk, fun h => ⟨_, rfl, countWord_toNat h⟩,
    fun h => ⟨_, rfl, olenWord_toNat h⟩⟩
  case res => exact BitVec.toNat_setWidth_of_le (by decide)
  case chunk => simp [State.hostReg, hc]

end Sys2Proof.Machine
end

section
/-! A command that reads IBUF does not consume it (20_memory.md R36): IBUF and the tag register CHUNK.NEW reads
are outside the destination, so issued again the command ends the same way, and a commit made again changes
nothing. -/

namespace Sys2Proof.Machine

/-! ### A commit made again changes nothing -/

theorem State.raise_again (s : State) (d : Dest) (e : Err) : (s.raise d e).raise d e = s.raise d e := by
  cases d with
  | tag r => cases r <;> rfl
  | ck | obuf | res | nothing => rfl

theorem State.setTag_ok_again (s : State) (r : TagReg) (v : Option Bytes4) :
    ((s.setTag r v).ok.setTag r v).ok = (s.setTag r v).ok := by
  cases r <;> rfl

theorem State.setChunk_ok_again (s : State) (c : Chunk) :
    ((s.setChunk c).ok.setChunk c).ok = (s.setChunk c).ok := rfl

/-! ### The three commands that read IBUF, issued again -/

section
variable {s t : State} (ibuf : t.ibuf = s.ibuf)
include ibuf

theorem execTagFromText_again {td : TagReg} (run : execTagFromText td s = .next t) :
    execTagFromText td t = .next t := by
  unfold execTagFromText at run ⊢
  rw [ibuf]
  split at run
  · cases run
    rw [State.raise_again]
  · split at run
    · cases run
      rw [State.raise_again]
    · cases run
      rw [State.setTag_ok_again]

theorem execChunkDecode_again (run : execChunkDecode s = .next t) : execChunkDecode t = .next t := by
  unfold execChunkDecode at run ⊢
  rw [ibuf]
  split at run
  · cases run
    rw [State.raise_again]
  · cases run
    rw [State.setChunk_ok_again]

theorem execChunkNew_again {ta : TagReg} (tag : t.tag ta = s.tag ta) (run : execChunkNew ta s = .next t) :
    execChunkNew ta t = .next t := by
  unfold execChunkNew at run ⊢
  rw [ibuf]
  cases source : s.tag ta with
  | none =>
    rw [withTag_none _ source] at run
    rw [withTag_none _ (tag.trans source)]
    cases run
    rw [State.raise_again]
  | some ty =>
    rw [withTag_some _ source] at run
    rw [withTag_some _ (tag.trans source)]
    cases run
    rw [State.setChunk_ok_again]

end

/-- Settles O14: the frame of the command gives the inputs of the second run. -/
theorem readingIbufDoesNotConsumeIt : Obligations.ReadingIbufDoesNotConsumeIt := by
  intro s t i reads run
  have frame := everyCommandChangesOnlyItsDestination i s t run
  refine ⟨frame.ibuf_eq, ?_⟩
  obtain ⟨td, rfl⟩ | ⟨ta, rfl⟩ | rfl := reads
  · exact execTagFromText_again frame.ibuf_eq run
  · exact execChunkNew_again frame.ibuf_eq (frame.tags ta nofun) run
  · exact execChunkDecode_again frame.ibuf_eq run

end Sys2Proof.Machine
end

section
/-! What the host's actions do, each by its equation (20_memory.md R41, R42). -/

namespace Sys2Proof.Machine

theorem runAction_readObuf (s : State) :
    runAction .readObuf s = .next { s with answer := some (.bytes s.obuf) } := rfl

/-- Settles O7: a step hands the word over, and a word that decodes runs its command. -/
theorem stepRunsTheDecodedCommand : Obligations.StepRunsTheDecodedCommand :=
  fun _ _ _ _ next decodes _ => (step_of_host_cons next).trans (runAction_cmd_of_decode decodes _)

/-- Settles O10: its clauses are the two sides of PMAX. -/
theorem writeIbufReplacesTheBuffer : Obligations.WriteIbufReplacesTheBuffer :=
  fun s _ => ⟨runAction_writeIbuf_of_le s, runAction_writeIbuf_of_gt s⟩

/-- Settles O12. -/
theorem readsReturnTheValueAndChangeNothing : Obligations.ReadsReturnTheValueAndChangeNothing :=
  ⟨fun _ _ _ value => runAction_read_of_some value, runAction_readObuf⟩

end Sys2Proof.Machine
end

section
/-! The decoder is the opcode map (30_encoding.md R57, R63). The main fact about a row is
`encode_command`: the command a row reads from a word encodes to the row's "match" with the word's bits outside
"mask". So a word meets a row exactly when it is the encoding of what the row reads from it, and the obligations
about encodings follow. -/

namespace Sys2Proof

/-! ### Decoding as a choice of a row -/

/-- The command a row of the opcode map reads from the fields of a word. -/
def OpRow.command (row : OpRow) (w : CmdWord) : Instr :=
  row.build (.ofNum (CmdWord.td w)) (.ofNum (CmdWord.ta w)) (.ofNum (CmdWord.tb w)) (CmdWord.imm w)

/-- The mask of a row covers all of `OPC`, and its match has the row's operation code there. -/
theorem opRows_opc : ∀ row ∈ opRows, CmdWord.opc row.mask = 0xFF#8 ∧ CmdWord.opc row.pattern = row.opc := by
  unfold opRows tagRows chunkRows
  decide

theorem opc_of_meets {row : OpRow} (mem : row ∈ opRows) {w : CmdWord} (meets : w &&& row.mask = row.pattern) :
    row.opc = CmdWord.opc w := by
  obtain ⟨mask, pattern⟩ := opRows_opc row mem
  have opcAnd : CmdWord.opc (w &&& row.mask) = CmdWord.opc w &&& CmdWord.opc row.mask :=
    BitVec.extractLsb'_and
  rw [← pattern, ← meets, opcAnd, mask]
  exact BitVec.and_allOnes

theorem opRow_eq_of_opc {a b : OpRow} (ha : a ∈ opRows) (hb : b ∈ opRows) (h : a.opc = b.opc) : a = b :=
  List.inj_on_of_nodup_map (List.pairwise_map.mpr opRows_opcodes_distinct) ha hb h

/-- The procedure of R63, which picks the row by operation code, finds the row whose match and mask the word
meets. -/
theorem decode_eq_ok_iff {w : CmdWord} {i : Instr} :
    decode w = .ok i ↔ ∃ row ∈ opRows, w &&& row.mask = row.pattern ∧ row.command w = i := by
  unfold decode
  cases found : opRows.find? (fun row => row.opc == CmdWord.opc w) with
  | none =>
    refine iff_of_false nofun ?_
    rintro ⟨row, mem, meets, -⟩
    exact List.find?_eq_none.mp found row mem (beq_iff_eq.mpr (opc_of_meets mem meets))
  | some row =>
    have mem := List.mem_of_find?_eq_some found
    have opc : row.opc = CmdWord.opc w := by simpa using List.find?_some found
    constructor
    · intro h
      simp only at h
      split at h
      · rename_i meets
        cases h
        exact ⟨row, mem, meets, rfl⟩
      · cases h
    · rintro ⟨row', mem', meets, rfl⟩
      obtain rfl := opRow_eq_of_opc mem mem' (opc.trans (opc_of_meets mem' meets).symm)
      exact if_pos meets

/-! ### What a row reads encodes to its match and the word's operand bits -/

theorem cmdWord_or (opc opc' : BitVec 8) (td td' ta ta' tb tb' : BitVec 2) (imm imm' : Word) :
    cmdWord opc td ta tb imm ||| cmdWord opc' td' ta' tb' imm' =
      cmdWord (opc ||| opc') (td ||| td') (ta ||| ta') (tb ||| tb') (imm ||| imm') := by
  apply BitVec.eq_of_getLsbD_eq
  intro i _
  simp only [BitVec.getLsbD_or, cmdWord_getLsbD]
  split_ifs <;> rfl

/-- An operation code with the operand bits that the fields `td`, `ta`, `tb` and `imm` select from a word. -/
theorem opc_or_operands (opc : BitVec 8) (w : CmdWord) (td ta tb : BitVec 2) (imm : Word) :
    cmdWord opc 0#2 0#2 0#2 0#32 ||| (w &&& cmdWord 0#8 td ta tb imm) =
      cmdWord opc (td &&& CmdWord.td w) (ta &&& CmdWord.ta w) (tb &&& CmdWord.tb w) (imm &&& CmdWord.imm w) := by
  rw [BitVec.and_comm, cmdWord_and, cmdWord_or]
  simp

/-! The five shapes of a row, by the fields it uses (30_encoding.md R57, R58). -/

theorem encoding_td_imm (opc : BitVec 8) (w : CmdWord) :
    cmdWord opc (TagReg.ofNum (CmdWord.td w)).num 0#2 0#2 (CmdWord.imm w) =
      cmdWord opc 0#2 0#2 0#2 0#32 ||| (w &&& ~~~0xFF3FFFFF00000000#64) := by
  rw [show ~~~0xFF3FFFFF00000000#64 = cmdWord 0#8 (.allOnes 2) 0#2 0#2 (.allOnes 32) from rfl, opc_or_operands]
  simp only [TagReg.num_ofNum, BitVec.allOnes_and, BitVec.zero_and]

theorem encoding_td (opc : BitVec 8) (w : CmdWord) :
    cmdWord opc (TagReg.ofNum (CmdWord.td w)).num 0#2 0#2 0#32 =
      cmdWord opc 0#2 0#2 0#2 0#32 ||| (w &&& ~~~0xFF3FFFFFFFFFFFFF#64) := by
  rw [show ~~~0xFF3FFFFFFFFFFFFF#64 = cmdWord 0#8 (.allOnes 2) 0#2 0#2 0#32 from rfl, opc_or_operands]
  simp only [TagReg.num_ofNum, BitVec.allOnes_and, BitVec.zero_and]

theorem encoding_ta (opc : BitVec 8) (w : CmdWord) :
    cmdWord opc 0#2 (TagReg.ofNum (CmdWord.ta w)).num 0#2 0#32 =
      cmdWord opc 0#2 0#2 0#2 0#32 ||| (w &&& ~~~0xFFCFFFFFFFFFFFFF#64) := by
  rw [show ~~~0xFFCFFFFFFFFFFFFF#64 = cmdWord 0#8 0#2 (.allOnes 2) 0#2 0#32 from rfl, opc_or_operands]
  simp only [TagReg.num_ofNum, BitVec.allOnes_and, BitVec.zero_and]

theorem encoding_ta_tb (opc : BitVec 8) (w : CmdWord) :
    cmdWord opc 0#2 (TagReg.ofNum (CmdWord.ta w)).num (TagReg.ofNum (CmdWord.tb w)).num 0#32 =
      cmdWord opc 0#2 0#2 0#2 0#32 ||| (w &&& ~~~0xFFC3FFFFFFFFFFFF#64) := by
  rw [show ~~~0xFFC3FFFFFFFFFFFF#64 = cmdWord 0#8 0#2 (.allOnes 2) (.allOnes 2) 0#32 from rfl, opc_or_operands]
  simp only [TagReg.num_ofNum, BitVec.allOnes_and, BitVec.zero_and]

theorem encoding_no_operand (opc : BitVec 8) (w : CmdWord) :
    cmdWord opc 0#2 0#2 0#2 0#32 =
      cmdWord opc 0#2 0#2 0#2 0#32 ||| (w &&& ~~~0xFFFFFFFFFFFFFFFF#64) := by
  rw [show ~~~0xFFFFFFFFFFFFFFFF#64 = 0#64 from rfl, BitVec.and_zero, BitVec.or_zero]

/-- The encoding of the command `row` reads from `w` is the row's match, and `w` outside the row's mask. -/
def OpRow.Encodes (row : OpRow) (w : CmdWord) : Prop :=
  encode (row.command w) = row.pattern ||| (w &&& ~~~row.mask)

theorem tagRows_encode (w : CmdWord) : ∀ row ∈ tagRows, row.Encodes w := by
  simp only [tagRows, List.forall_mem_cons]
  exact ⟨encoding_td_imm 0x10#8 w, encoding_td 0x11#8 w, encoding_ta 0x12#8 w, encoding_ta 0x13#8 w,
    encoding_ta 0x14#8 w, encoding_ta 0x15#8 w, encoding_ta 0x16#8 w, encoding_ta 0x17#8 w,
    encoding_ta 0x18#8 w, encoding_ta_tb 0x19#8 w, nofun⟩

theorem chunkRows_encode (w : CmdWord) : ∀ row ∈ chunkRows, row.Encodes w := by
  simp only [chunkRows, List.forall_mem_cons]
  exact ⟨encoding_ta 0x20#8 w, encoding_no_operand 0x21#8 w, encoding_no_operand 0x22#8 w,
    encoding_no_operand 0x23#8 w, encoding_td 0x24#8 w, encoding_no_operand 0x25#8 w, nofun⟩

theorem encode_command {row : OpRow} (mem : row ∈ opRows) (w : CmdWord) :
    encode (row.command w) = row.pattern ||| (w &&& ~~~row.mask) :=
  (List.mem_append.mp mem).elim (tagRows_encode w row) (chunkRows_encode w row)

theorem opRows_pattern_in_mask : ∀ row ∈ opRows, row.pattern &&& row.mask = row.pattern := by
  unfold opRows tagRows chunkRows
  decide

/-- A word meets a row exactly when it is the encoding of the command the row reads from it. -/
theorem meets_iff_encode_command {row : OpRow} (mem : row ∈ opRows) {w : CmdWord} :
    w &&& row.mask = row.pattern ↔ encode (row.command w) = w := by
  rw [encode_command mem]
  constructor
  · intro meets
    rw [← meets, ← BitVec.and_or_distrib_left, BitVec.or_not_self, BitVec.and_allOnes]
  · intro h
    calc w &&& row.mask
        = (row.pattern ||| (w &&& ~~~row.mask)) &&& row.mask := by rw [h]
      _ = row.pattern &&& row.mask ||| w &&& (~~~row.mask &&& row.mask) := by
        rw [BitVec.and_or_distrib_right, BitVec.and_assoc]
      _ = row.pattern := by simp [opRows_pattern_in_mask row mem]

/-! ### Every command is read back from its encoding -/

theorem ofNum_td_cmdWord (opc : BitVec 8) (td : TagReg) (ta tb : BitVec 2) (imm : Word) :
    TagReg.ofNum (CmdWord.td (cmdWord opc td.num ta tb imm)) = td := by
  rw [cmdWord_td, TagReg.ofNum_num]

theorem ofNum_ta_cmdWord (opc : BitVec 8) (td : BitVec 2) (ta : TagReg) (tb : BitVec 2) (imm : Word) :
    TagReg.ofNum (CmdWord.ta (cmdWord opc td ta.num tb imm)) = ta := by
  rw [cmdWord_ta, TagReg.ofNum_num]

theorem ofNum_tb_cmdWord (opc : BitVec 8) (td ta : BitVec 2) (tb : TagReg) (imm : Word) :
    TagReg.ofNum (CmdWord.tb (cmdWord opc td ta tb.num imm)) = tb := by
  rw [cmdWord_tb, TagReg.ofNum_num]

/-- Some row of the opcode map reads the command from its own encoding. -/
def ReadBack (i : Instr) : Prop := ∃ row ∈ opRows, row.command (encode i) = i

theorem ReadBack.of_row {i : Instr} {row : OpRow} (k : Nat) (hk : opRows[k]? = some row)
    (h : row.command (encode i) = i) : ReadBack i :=
  ⟨row, List.mem_of_getElem? hk, h⟩

theorem readBack (i : Instr) : ReadBack i := by
  cases i with
  | tagFromBytes td imm =>
    exact .of_row 0 rfl (congrArg₂ Instr.tagFromBytes (ofNum_td_cmdWord ..) (cmdWord_imm ..))
  | tagFromText td => exact .of_row 1 rfl (congrArg Instr.tagFromText (ofNum_td_cmdWord ..))
  | tagIsCritical ta => exact .of_row 2 rfl (congrArg Instr.tagIsCritical (ofNum_ta_cmdWord ..))
  | tagIsPublic ta => exact .of_row 3 rfl (congrArg Instr.tagIsPublic (ofNum_ta_cmdWord ..))
  | tagIsResValid ta => exact .of_row 4 rfl (congrArg Instr.tagIsResValid (ofNum_ta_cmdWord ..))
  | tagIsSafe ta => exact .of_row 5 rfl (congrArg Instr.tagIsSafe (ofNum_ta_cmdWord ..))
  | tagIsValid ta => exact .of_row 6 rfl (congrArg Instr.tagIsValid (ofNum_ta_cmdWord ..))
  | tagBytes ta => exact .of_row 7 rfl (congrArg Instr.tagBytes (ofNum_ta_cmdWord ..))
  | tagText ta => exact .of_row 8 rfl (congrArg Instr.tagText (ofNum_ta_cmdWord ..))
  | tagEq ta tb =>
    exact .of_row 9 rfl (congrArg₂ Instr.tagEq (ofNum_ta_cmdWord ..) (ofNum_tb_cmdWord ..))
  | chunkNew ta => exact .of_row 10 rfl (congrArg Instr.chunkNew (ofNum_ta_cmdWord ..))
  | chunkDecode => exact .of_row 11 rfl rfl
  | chunkEncode => exact .of_row 12 rfl rfl
  | chunkText => exact .of_row 13 rfl rfl
  | chunkType td => exact .of_row 14 rfl (congrArg Instr.chunkType (ofNum_td_cmdWord ..))
  | chunkPayload => exact .of_row 15 rfl rfl

theorem decode_encode (i : Instr) : decode (encode i) = .ok i := by
  obtain ⟨row, mem, reads⟩ := readBack i
  have meets : encode i &&& row.mask = row.pattern :=
    (meets_iff_encode_command mem).mpr (congrArg encode reads)
  exact decode_eq_ok_iff.mpr ⟨row, mem, meets, reads⟩

/-- Settles O2: the row that reads the command back is one its encoding meets, by `meets_iff_encode_command`. -/
theorem decodeOfEncodeGivesTheCommand : Obligations.DecodeOfEncodeGivesTheCommand :=
  fun i _ => decode_encode i

/-- Settles O3: a word meets a row only as the encoding of what the row reads from it. -/
theorem encodeOfDecodeGivesTheWord : Obligations.EncodeOfDecodeGivesTheWord := by
  intro w i h
  obtain ⟨row, mem, meets, rfl⟩ := decode_eq_ok_iff.mp h
  exact (meets_iff_encode_command mem).mp meets

/-- Settles O1: each word is the encoding of its command. -/
theorem wordsWrittenInTheSpecDecode : Obligations.WordsWrittenInTheSpecDecode :=
  ⟨decode_encode (.tagFromBytes .t0 0x52755374#32), decode_encode (.tagFromBytes .t1 0x52755374#32),
    decode_encode (.tagEq .t0 .t1), decode_encode (.tagIsCritical .t1), decode_encode (.chunkNew .t2),
    decode_encode (.chunkType .t1), decode_encode .chunkDecode⟩

end Sys2Proof
end

section
/-! The fields of a word as numbers (00_scope.md R8), and with them the decoder against the opcode map of the
statements (30_encoding.md R57) and the fields a command leaves 0 (R58). -/

namespace Sys2Proof

open Sys2Proof.Claims

/-! ### Fields as the statements write them -/

/-- The numeric field of R8 is the slice of the same bits. -/
theorem field_eq_extract {n : Nat} (v : BitVec n) (hi lo : Nat) :
    field v.toNat hi lo = (v.extractLsb' lo (hi - lo + 1)).toNat := by
  simp [field, Nat.shiftRight_eq_div_pow]

theorem ofNat_field {n : Nat} (v : BitVec n) (hi lo : Nat) :
    BitVec.ofNat (hi - lo + 1) (field v.toNat hi lo) = v.extractLsb' lo (hi - lo + 1) := by
  rw [field_eq_extract, BitVec.ofNat_toNat, BitVec.setWidth_eq]

theorem regNo_toNat : ∀ n : BitVec 2, regNo n.toNat = TagReg.ofNum n := by decide

theorem tdOf_eq (w : CmdWord) : tdOf w = .ofNum (CmdWord.td w) :=
  (congrArg regNo (field_eq_extract w 55 54)).trans (regNo_toNat _)

theorem taOf_eq (w : CmdWord) : taOf w = .ofNum (CmdWord.ta w) :=
  (congrArg regNo (field_eq_extract w 53 52)).trans (regNo_toNat _)

theorem tbOf_eq (w : CmdWord) : tbOf w = .ofNum (CmdWord.tb w) :=
  (congrArg regNo (field_eq_extract w 51 50)).trans (regNo_toNat _)

theorem immOf_eq (w : CmdWord) : BitVec.ofNat 32 (field w.toNat 31 0) = CmdWord.imm w := ofNat_field w 31 0

/-! ### The two opcode maps -/

/-- A row of the decoder's table as a row of the map in the statements. -/
def OpRow.toMapRow (row : OpRow) : MapRow := ⟨row.pattern, row.mask, row.command⟩

theorem opcodeMap_eq : opcodeMap = opRows.map OpRow.toMapRow := by
  simp only [opcodeMap, tdOf_eq, taOf_eq, tbOf_eq, immOf_eq]
  rfl

/-- Settles O4: `decode_eq_ok_iff`, and the two tables are one. -/
theorem decoderIsTheOpcodeMap : Obligations.DecoderIsTheOpcodeMap := by
  intro w i
  rw [decode_eq_ok_iff, opcodeMap_eq]
  simp only [List.mem_map, exists_exists_and_eq_and]
  rfl

/-! ### The fields a command does not use -/

theorem cmdWord_zeroField (opc : BitVec 8) (td ta tb : BitVec 2) (imm : Word) :
    (cmdWord opc td ta tb imm).extractLsb' 32 18 = 0#18 := by
  apply BitVec.eq_of_getLsbD_eq
  intro j hj
  rw [field_getLsbD _ _ _ _ hj, cmdWord_getLsbD, if_neg (by omega), if_pos (by omega), BitVec.getLsbD_zero]

theorem encode_zeroField (i : Instr) : (encode i).extractLsb' 32 18 = 0#18 := by
  cases i <;> exact cmdWord_zeroField ..

theorem encode_td_of_unused {i : Instr} (h : ¬ usesTd i) : CmdWord.td (encode i) = 0#2 := by
  cases i with
  | tagFromBytes | tagFromText | chunkType => exact absurd trivial h
  | _ => exact cmdWord_td ..

theorem encode_ta_of_unused {i : Instr} (h : ¬ usesTa i) : CmdWord.ta (encode i) = 0#2 := by
  cases i with
  | tagFromBytes | tagFromText | chunkDecode | chunkEncode | chunkText | chunkType | chunkPayload =>
    exact cmdWord_ta ..
  | _ => exact absurd trivial h

theorem encode_tb_of_unused {i : Instr} (h : ¬ usesTb i) : CmdWord.tb (encode i) = 0#2 := by
  cases i with
  | tagEq => exact absurd trivial h
  | _ => exact cmdWord_tb ..

theorem encode_imm_of_unused {i : Instr} (h : ¬ usesImm i) : CmdWord.imm (encode i) = 0#32 := by
  cases i with
  | tagFromBytes => exact absurd trivial h
  | _ => exact cmdWord_imm ..

/-- A field whose bits are 0 is the number 0. -/
theorem field_eq_zero {w : CmdWord} {hi lo : Nat} (h : w.extractLsb' lo (hi - lo + 1) = 0#(hi - lo + 1)) :
    field w.toNat hi lo = 0 := by
  rw [field_eq_extract, h, BitVec.toNat_zero]

/-- Settles O5: the word is the encoding of the command, whose unused fields are 0. -/
theorem unusedFieldsOfACommandAreZero : Obligations.UnusedFieldsOfACommandAreZero := by
  intro w i h
  obtain rfl := encodeOfDecodeGivesTheWord w i h
  exact ⟨field_eq_zero (encode_zeroField i), fun unused => field_eq_zero (encode_td_of_unused unused),
    fun unused => field_eq_zero (encode_ta_of_unused unused),
    fun unused => field_eq_zero (encode_tb_of_unused unused),
    fun unused => field_eq_zero (encode_imm_of_unused unused)⟩

end Sys2Proof
end

section
/-! The size law of CHUNK.ENCODE (42_chunk.md R103). -/

namespace Sys2Proof.Machine

open Sys2Proof.Claims

theorem be32Bytes_toNat (v : Word) : be32Bytes v.toNat = be32bytes v := by
  have byte (hi lo : Nat) (h : hi - lo + 1 = 8) : BitVec.ofNat 8 (field v.toNat hi lo) = v.extractLsb' lo 8 :=
    h ▸ ofNat_field v hi lo
  simp only [be32Bytes, be32bytes, byte]

/-! ### Where the fields of a record stand (30_encoding.md R50) -/

section
variable (c : Chunk)

theorem Chunk.record_slice_length : Memory.slice c.record 0 4 = (be32bytes c.length).toList := by
  have := slice_append (pre := []) (mid := (be32bytes c.length).toList)
    (post := c.type.toList ++ c.payload ++ (be32bytes c.crc).toList) rfl rfl
  simpa [Chunk.record] using this

theorem Chunk.record_slice_type : Memory.slice c.record 4 4 = c.type.toList := by
  have := slice_append (pre := (be32bytes c.length).toList) (mid := c.type.toList)
    (post := c.payload ++ (be32bytes c.crc).toList) rfl rfl
  simpa [Chunk.record] using this

theorem Chunk.record_slice_payload : Memory.slice c.record 8 c.payload.length = c.payload :=
  slice_append (pre := (be32bytes c.length).toList ++ c.type.toList) rfl rfl

theorem Chunk.record_slice_crc :
    Memory.slice c.record (8 + c.payload.length) 4 = (be32bytes c.crc).toList := by
  have before : ((be32bytes c.length).toList ++ c.type.toList ++ c.payload).length = 8 + c.payload.length := by
    simp
    omega
  simpa [Chunk.record] using slice_append (post := []) before (Bytes4.toList_length (be32bytes c.crc))

end

/-- Settles O36: OBUF is the record, and by the invariant `CK.length` is the length of its payload. -/
theorem encodedRecordHasItsFieldsInPlace : Obligations.EncodedRecordHasItsFieldsInPlace := by
  intro s t c hinv hc run
  obtain rfl := Host.Outcome.next.inj (run.symm.trans (exec_chunkEncode_of_some hc))
  have inv := hinv.chunk c hc
  rw [State.ok_obuf, State.setObuf_obuf, be32Bytes_toNat, be32Bytes_toNat, inv.length_eq]
  have length := c.record_length
  exact ⟨length, by omega, Memory.wf_iff.mp (Chunk.record_fits inv.fits), c.record_slice_length,
    c.record_slice_type, c.record_slice_payload, c.record_slice_crc⟩

end Sys2Proof.Machine
end

section
/-! The CRC-32 unit in its other forms: bit-serial (40_crc32.md R72), by table (R74), not reflected (R70), run on
through a concatenation (R76), and under one flipped bit (R79). -/

namespace Sys2Proof.Machine

open Sys2Proof.Claims

/-! ### Iterations counted from the end -/

theorem crcShifts_succ (k : Nat) (c : Word) : crcShifts (k + 1) c = crcShift (crcShifts k c) := by
  induction k generalizing c with
  | zero => rfl
  | succ k ih => exact ih (crcShift c)

theorem crcShifts_eq_foldl (k : Nat) (c : Word) :
    crcShifts k c = (List.range k).foldl (fun c _ => crcShift c) c := by
  induction k with
  | zero => rfl
  | succ k ih => rw [crcShifts_succ, ih, List.range_succ, List.foldl_concat]

/-! ### The bit-serial form -/

/-- A byte entered in a register keeps its bits, and the bits above them are 0. -/
theorem byte_getLsbD (b : Byte) (i : Nat) : (b.setWidth 32).getLsbD i = b.getLsbD i := by
  rw [BitVec.getLsbD_setWidth, Bool.and_eq_right_iff_imp, decide_eq_true_eq]
  exact fun h => Nat.lt_trans (BitVec.lt_of_getLsbD h) (by decide)

/-- The body of the bit-serial loop: bit `i` of `b` meets bit 0 of the register (40_crc32.md R72). -/
def serialStep (b : Byte) (c : Word) (i : Nat) : Word :=
  if (c.getLsbD 0 ^^ b.getLsbD i) = true then (c >>> 1) ^^^ polyR else c >>> 1

/-- One serial step is one iteration over the register with the bits of the byte from `i` on put into it. -/
theorem serialStep_eq_crcShift (b : Byte) (c : Word) (i : Nat) :
    serialStep b c i = crcShift (c ^^^ b.setWidth 32 >>> i) ^^^ b.setWidth 32 >>> (i + 1) := by
  have bit0 : (c ^^^ b.setWidth 32 >>> i).getLsbD 0 = (c.getLsbD 0 ^^ b.getLsbD i) := by
    rw [BitVec.getLsbD_xor, BitVec.getLsbD_ushiftRight, Nat.add_zero, byte_getLsbD]
  have shifted : c >>> 1 = (c ^^^ b.setWidth 32 >>> i) >>> 1 ^^^ b.setWidth 32 >>> (i + 1) := by
    rw [BitVec.ushiftRight_xor_distrib, BitVec.shiftRight_add, BitVec.xor_assoc, BitVec.xor_self, BitVec.xor_zero]
  unfold serialStep crcShift
  rw [bit0, shifted]
  split
  · rw [BitVec.xor_assoc, BitVec.xor_assoc, BitVec.xor_comm polyR]
  · rfl

/-- After `k` serial steps the register lacks the bits of the byte that are still to come. -/
theorem foldl_serialStep (b : Byte) (c : Word) (k : Nat) :
    (List.range k).foldl (serialStep b) c = crcShifts k (c ^^^ b.setWidth 32) ^^^ b.setWidth 32 >>> k := by
  induction k with
  | zero => simp [crcShifts]
  | succ k ih =>
    rw [List.range_succ, List.foldl_concat, serialStep_eq_crcShift, ih, BitVec.xor_assoc, BitVec.xor_self,
      BitVec.xor_zero, crcShifts_succ]

theorem byte_ushiftRight_eight (b : Byte) : b.setWidth 32 >>> 8 = 0#32 := by
  apply BitVec.eq_of_getLsbD_eq
  intro i _
  rw [BitVec.getLsbD_ushiftRight, byte_getLsbD, BitVec.getLsbD_of_ge b (8 + i) (by omega), BitVec.getLsbD_zero]

/-- Settles O44: after eight serial steps no bit of the byte is still to come. -/
theorem crcByteEqualsTheBitSerialForm : Obligations.CrcByteEqualsTheBitSerialForm := by
  intro c b
  have serial : crcSerial c b = crcByte c b ^^^ b.setWidth 32 >>> 8 := foldl_serialStep b c 8
  rw [serial, byte_ushiftRight_eight, BitVec.xor_zero]

/-! ### The table form -/

theorem lowByte_xor_rest (x : Word) : (x.extractLsb' 0 8).setWidth 32 ^^^ x >>> 8 <<< 8 = x := by
  apply BitVec.eq_of_getLsbD_eq
  intro i hi
  by_cases h : i < 8
  · simp [h, hi]
  · have : 8 + (i - 8) = i := by omega
    simp [h, hi, this]

/-- Eight iterations send the low byte through the table and shift the rest down (40_crc32.md R74). -/
theorem crcShifts_eight (x : Word) : crcShifts 8 x = crcByte 0#32 (x.extractLsb' 0 8) ^^^ x >>> 8 := by
  have rest : crcShifts 8 (x >>> 8 <<< 8) = x >>> 8 := by
    rw [crcShifts_of_low_zero 8 _ fun i hi => by simp [hi]]
    apply BitVec.eq_of_getLsbD_eq
    intro i _
    simpa using BitVec.lt_of_getLsbD
  calc crcShifts 8 x = crcShifts 8 ((x.extractLsb' 0 8).setWidth 32 ^^^ x >>> 8 <<< 8) := by
        rw [lowByte_xor_rest]
    _ = crcByte 0#32 (x.extractLsb' 0 8) ^^^ x >>> 8 := by
        rw [crcShifts_xor, rest, crcByte, BitVec.zero_xor]

/-- Settles O46: above its low byte the register is as before the byte entered. -/
theorem crcByteEqualsTheTableForm : Obligations.CrcByteEqualsTheTableForm := by
  intro c b
  have low := ofNat_field (c ^^^ b.setWidth 32) 7 0
  have high : (c ^^^ b.setWidth 32) >>> 8 = c >>> 8 := by
    rw [BitVec.ushiftRight_xor_distrib, byte_ushiftRight_eight, BitVec.xor_zero]
  rw [low, ← high]
  exact crcShifts_eight _

/-! ### The parameter set that is not reflected -/

/-- One move of the register to the left (40_crc32.md R70). -/
def leftShift (c : Word) : Word := if c.msb = true then (c <<< 1) ^^^ 0x04C11DB7#32 else c <<< 1

theorem reverse_xor {n : Nat} (a b : BitVec n) : (a ^^^ b).reverse = a.reverse ^^^ b.reverse := by
  apply BitVec.eq_of_getLsbD_eq
  intro i _
  simp only [BitVec.getLsbD_reverse, BitVec.getLsbD_xor, BitVec.getMsbD_xor]

theorem reverse_shiftLeft_one {n : Nat} (c : BitVec n) : (c <<< 1).reverse = c.reverse >>> 1 := by
  apply BitVec.eq_of_getLsbD_eq
  intro i _
  rw [BitVec.getLsbD_reverse, BitVec.getMsbD_shiftLeft, BitVec.getLsbD_ushiftRight, BitVec.getLsbD_reverse,
    Nat.add_comm]

theorem reverse_allOnes (n : Nat) : (BitVec.allOnes n).reverse = BitVec.allOnes n := by
  apply BitVec.eq_of_getLsbD_eq
  intro i hi
  rw [BitVec.getLsbD_reverse, BitVec.getMsbD_allOnes, BitVec.getLsbD_allOnes]

theorem reverse_polynomial : (0x04C11DB7#32).reverse = polyR := by
  have bits : ∀ i : Fin 32, (0x04C11DB7#32).getMsbD i = polyR.getLsbD i := by decide
  apply BitVec.eq_of_getLsbD_eq
  intro i hi
  rw [BitVec.getLsbD_reverse]
  exact bits ⟨i, hi⟩

/-- The bit-reversed byte at the top of a register is the byte at the bottom of the reversed register. -/
theorem reverse_byteAtTop (b : Byte) : (b.reverse.setWidth 32 <<< 24).reverse = b.setWidth 32 := by
  apply BitVec.eq_of_getLsbD_eq
  intro i hi
  have top : (b.reverse.setWidth 32).getMsbD (i + 24) = b.reverse.getMsbD i := by
    simp
  rw [BitVec.getLsbD_reverse, BitVec.getMsbD_shiftLeft, top, BitVec.getMsbD_reverse, byte_getLsbD]

/-- The reversed register makes the model's iteration where the register moves left. -/
theorem crcShift_reverse (c : Word) : crcShift c.reverse = (leftShift c).reverse := by
  have bit0 : c.reverse.getLsbD 0 = c.msb := BitVec.getLsbD_reverse
  unfold crcShift leftShift
  rw [bit0, ← reverse_shiftLeft_one, ← reverse_polynomial, ← reverse_xor]
  exact (apply_ite BitVec.reverse _ _ _).symm

theorem crcByte_reverse (c : Word) (b : Byte) : crcByte c.reverse b = (crcLeftByte c b).reverse := by
  rw [crcByte, ← reverse_byteAtTop, ← reverse_xor, crcShifts_eq_foldl]
  exact List.foldl_hom BitVec.reverse fun c _ => crcShift_reverse c

/-- Settles O45: the bit-reversed register is the model's, byte by byte. -/
theorem crcIsTheReflectedParameterSet : Obligations.CrcIsTheReflectedParameterSet := by
  intro s
  have init : (0xFFFFFFFF#32).reverse = 0xFFFFFFFF#32 := reverse_allOnes 32
  have run : crcRun (0xFFFFFFFF#32).reverse s = (s.foldl crcLeftByte 0xFFFFFFFF#32).reverse :=
    List.foldl_hom BitVec.reverse crcByte_reverse
  rw [crc32, ← run, init]

/-! ### Concatenation -/

theorem crcRun_append (c : Word) (s t : List Byte) : crcRun c (s ++ t) = crcRun (crcRun c s) t :=
  List.foldl_append

/-- Settles O47. -/
theorem crcRunsOnThroughConcatenation : Obligations.CrcRunsOnThroughConcatenation :=
  ⟨fun _ => rfl, fun c s b => List.foldl_concat crcByte c b s, fun _ => rfl, crcRun_append⟩

/-! ### One flipped bit -/

/-- Two sequences that may differ in one byte only have the same checksum only where that byte is the same. -/
theorem crc32_injective_byte {pre post : List Byte} {x y : Byte}
    (h : crc32 (pre ++ x :: post) = crc32 (pre ++ y :: post)) : x = y := by
  simp only [crc32, BitVec.xor_left_inj, crcRun_append] at h
  exact crcByte_injective_byte (crcRun_injective post h)

theorem flippedByte_ne (v : Byte) {k : Nat} (h : k < 8) : v ^^^ (1#8 <<< k) ≠ v := by
  intro same
  simpa [h] using congrArg (·.getLsbD k) same

/-- Settles O48: the flipped byte is another byte, and the bytes before and after it are the same. -/
theorem oneFlippedBitChangesTheCrc : Obligations.OneFlippedBitChangesTheCrc := by
  intro s i k hi hk same
  obtain ⟨pre, v, post, hs, -, flipped⟩ := List.exists_of_modify (fun v => v ^^^ (1#8 <<< k)) hi
  rw [flipBit, flipped, hs] at same
  exact flippedByte_ne v hk (crc32_injective_byte same)

end Sys2Proof.Machine
end

section
/-! CHUNK.DECODE of a record with one flipped bit of its type, payload or checksum (42_chunk.md R111): the bit
leaves the length field and so every field where it was, and the field it hits is another one. -/

namespace Sys2Proof.Machine

open Sys2Proof.Claims

/-! ### The scan for a byte that is no letter, in the statements' words -/

theorem firstNonAlpha_eq_none_iff_allLetters {l : List Byte} : firstNonAlpha l = none ↔ AllLetters l := by
  simp only [firstNonAlpha_eq_none, isAlpha_iff]
  rfl

theorem take_letters_iff {l : List Byte} {i : Nat} :
    (∀ c ∈ l.take i, isAlpha c = true) ↔ ∀ j c, j < i → l[j]? = some c → Letter c := by
  constructor
  · intro letters j c hj hc
    exact (isAlpha_iff c).mp (letters c (List.mem_of_getElem? ((List.getElem?_take_of_lt hj).trans hc)))
  · intro letters c hc
    obtain ⟨j, hj, rfl⟩ := List.mem_take_iff_getElem.mp hc
    have below : j < i := Nat.lt_of_lt_of_le hj (Nat.min_le_left _ _)
    exact (isAlpha_iff _).mpr (letters j _ below (List.getElem?_eq_getElem _))

theorem firstNonAlpha_eq_some_iff_firstNonLetter {l : List Byte} {i : Nat} {v : Byte} :
    firstNonAlpha l = some (i, v) ↔ FirstNonLetter l i v := by
  rw [firstNonAlpha_eq_some, take_letters_iff, Bool.eq_false_iff, ne_eq, isAlpha_iff, FirstNonLetter]

/-! ### Two ends of CHUNK.DECODE -/

/-- CHUNK.DECODE ends with ChecksumMismatch and an empty CK. -/
def DecodeMismatches (s : State) : Prop :=
  ∃ t, exec .chunkDecode s = .next t ∧ t.status = 0x03#32 ∧ t.ck = none

theorem exec_chunkDecode_of_error {s : State} {e : Err} (h : parseRecord s.ibuf = .error e) :
    exec .chunkDecode s = .next (s.raise .ck e) := by
  rw [exec, execChunkDecode, h]

section
variable {s : State} {len ty : Bytes4}

/-- A whole record whose checksum is not that of its type and payload (42_chunk.md R101, step 5). -/
theorem decodeMismatches_of_record {stored : Bytes4} {pay : List Byte}
    (layout : s.ibuf = len.toList ++ ty.toList ++ (pay ++ stored.toList)) (length : pay.length = (be32 len).toNat)
    (letters : AllLetters ty.toList) (differ : crc32 (ty.toList ++ pay) ≠ be32 stored) : DecodeMismatches s := by
  have checksum := parseChecksum_full len ty stored pay [] (be32 len) length
  rw [List.append_nil, if_neg differ] at checksum
  have parse : parseRecord s.ibuf = .error (.checksumMismatch (crc32 (ty.toList ++ pay)) (be32 stored)) := by
    rw [layout, parseRecord_fields, firstNonAlpha_eq_none_iff_allLetters.mpr letters, checksum]
    simp [length]
  exact ⟨s.raise .ck _, exec_chunkDecode_of_error parse, statusWord_checksumMismatch _ _, rfl⟩

/-- A type field with a byte that is no letter (42_chunk.md R101, step 2). -/
theorem chunkDecode_answers_nonAlphabetic {rest : List Byte} {i : Nat} {v : Byte}
    (layout : s.ibuf = len.toList ++ ty.toList ++ rest) (first : FirstNonLetter ty.toList i v) :
    Answers .chunkDecode s .ck 0x0A i v.toNat (fun t => t.ck = none) := by
  have parse : parseRecord s.ibuf = .error (.nonAlphabetic i v) := by
    rw [layout, parseRecord_fields, firstNonAlpha_eq_some_iff_firstNonLetter.mpr first]
  exact ⟨s.raise .ck _, exec_chunkDecode_of_error parse, sameExcept_raise .ck s _,
    statusWord_nonAlphabetic i v, rfl, (BitVec.ofNat_toNat 32 v).symm, rfl⟩

end

/-! ### Flipped bits -/

theorem flipBit_length (l : List Byte) (i k : Nat) : (flipBit l i k).length = l.length := List.length_modify _ _ _

theorem flipBit_getElem?_ne (l : List Byte) {i j : Nat} (k : Nat) (h : i ≠ j) : (flipBit l i k)[j]? = l[j]? :=
  List.getElem?_modify_ne _ l h

theorem flipBit_ne {l : List Byte} {i k : Nat} (hi : i < l.length) (hk : k < 8) : flipBit l i k ≠ l :=
  mt (congrArg crc32) (oneFlippedBitChangesTheCrc l i k hi hk)

theorem flipBit_append_left {l : List Byte} (r : List Byte) {i : Nat} (k : Nat) (hi : i < l.length) :
    flipBit (l ++ r) i k = flipBit l i k ++ r := by
  induction l generalizing i with
  | nil => cases hi
  | cons a l ih =>
    cases i with
    | zero => rfl
    | succ i => exact congrArg (a :: ·) (ih (Nat.lt_of_succ_lt_succ hi))

theorem flipBit_append_right {l : List Byte} (r : List Byte) {n : Nat} (i k : Nat) (hn : l.length = n) :
    flipBit (l ++ r) (n + i) k = l ++ flipBit r i k := by
  subst hn
  induction l with
  | nil => simp
  | cons a l ih =>
    rw [List.length_cons, Nat.add_right_comm]
    exact congrArg (a :: ·) ih

theorem allLetters_flipBit {l : List Byte} {i k : Nat} {v : Byte} (h : AllLetters l)
    (at_i : (flipBit l i k)[i]? = some v) (letter : Letter v) : AllLetters (flipBit l i k) := by
  intro c hc
  obtain ⟨j, hj⟩ := List.mem_iff_getElem?.mp hc
  by_cases hij : i = j
  · subst hij
    exact Option.some.inj (at_i.symm.trans hj) ▸ letter
  · exact h c (List.mem_of_getElem? ((flipBit_getElem?_ne l k hij).symm.trans hj))

theorem firstNonLetter_flipBit {l : List Byte} {i k : Nat} {v : Byte} (h : AllLetters l)
    (at_i : (flipBit l i k)[i]? = some v) (noLetter : ¬ Letter v) : FirstNonLetter (flipBit l i k) i v :=
  ⟨at_i, noLetter, fun _ c hj hc =>
    h c (List.mem_of_getElem? ((flipBit_getElem?_ne l k (Nat.ne_of_gt hj)).symm.trans hc))⟩

/-! ### A flipped bit in each field of a record -/

theorem exists_toList_eq {l : List Byte} (h : l.length = 4) : ∃ c : Bytes4, c.toList = l := by
  match l, h with
  | [b0, b1, b2, b3], _ => exact ⟨⟨b0, b1, b2, b3⟩, rfl⟩

theorem header_length (len ty : Bytes4) : (len.toList ++ ty.toList).length = 8 := rfl

/-- A flipped field of four bytes is four bytes again. -/
theorem exists_flippedField (c : Bytes4) (i k : Nat) : ∃ c' : Bytes4, c'.toList = flipBit c.toList i k :=
  exists_toList_eq (flipBit_length _ i k)

section
variable {s : State} {b pay : List Byte} {len : Nat} {ty : Bytes4} (good : GoodRecord b len ty pay)
include good

/-- A good record with its length and checksum fields as the model writes them. -/
theorem goodRecord_layout :
    b = (be32bytes (BitVec.ofNat 32 len)).toList ++ ty.toList ++
      (pay ++ (be32bytes (crc32 (ty.toList ++ pay))).toList) := by
  have length : be32Bytes len = be32bytes (BitVec.ofNat 32 len) := by
    rw [← be32Bytes_toNat, BitVec.toNat_ofNat, Nat.mod_eq_of_lt good.len_lt]
  rw [good.bytes, length, be32Bytes_toNat, List.append_assoc _ pay]

theorem goodRecord_length_field : (be32 (be32bytes (BitVec.ofNat 32 len))).toNat = pay.length := by
  rw [be32_be32bytes, BitVec.toNat_ofNat, Nat.mod_eq_of_lt good.len_lt, good.len_eq]

theorem decodeMismatches_of_flippedPayload {i k : Nat} (hi : i < len) (hk : k < 8)
    (hs : s.ibuf = flipBit b (8 + i) k) : DecodeMismatches s := by
  have inPayload : i < pay.length := good.len_eq ▸ hi
  rw [goodRecord_layout good, flipBit_append_right _ i k (header_length _ _), flipBit_append_left _ k inPayload] at hs
  refine decodeMismatches_of_record hs ?_ good.letters ?_
  · rw [flipBit_length, goodRecord_length_field good]
  · rw [be32_be32bytes, ← flipBit_append_right pay i k (Bytes4.toList_length ty)]
    exact oneFlippedBitChangesTheCrc _ _ _ (by simpa using inPayload) hk

theorem decodeMismatches_of_flippedChecksum {i k : Nat} (hi : i < 4) (hk : k < 8)
    (hs : s.ibuf = flipBit b (8 + (len + i)) k) : DecodeMismatches s := by
  obtain ⟨stored, flipped⟩ := exists_flippedField (be32bytes (crc32 (ty.toList ++ pay))) i k
  rw [goodRecord_layout good, flipBit_append_right _ _ k (header_length _ _), flipBit_append_right _ i k good.len_eq,
    ← flipped] at hs
  refine decodeMismatches_of_record hs (goodRecord_length_field good).symm good.letters ?_
  intro same
  rw [← be32_injective ((be32_be32bytes _).trans same)] at flipped
  exact flipBit_ne hi hk flipped.symm

/-- The record with a flipped bit in its type field: only that field differs. -/
theorem exists_flippedType {i k : Nat} (hi : i < 4) (hs : s.ibuf = flipBit b (4 + i) k) :
    ∃ ty' : Bytes4, ty'.toList = flipBit ty.toList i k ∧
      s.ibuf = (be32bytes (BitVec.ofNat 32 len)).toList ++ ty'.toList ++
        (pay ++ (be32bytes (crc32 (ty.toList ++ pay))).toList) := by
  obtain ⟨ty', flipped⟩ := exists_flippedField ty i k
  refine ⟨ty', flipped, ?_⟩
  rw [hs, goodRecord_layout good, List.append_assoc, flipBit_append_right _ i k (Bytes4.toList_length _),
    flipBit_append_left _ k hi, flipped, List.append_assoc]

/-- A type byte that is a letter still: the span of the checksum has one flipped bit. A byte that is none any
more is the first such. -/
theorem chunkDecode_of_flippedType {i k : Nat} (hi : i < 4) (hk : k < 8) (hs : s.ibuf = flipBit b (4 + i) k)
    {v : Byte} (hv : s.ibuf[4 + i]? = some v) :
    (Letter v → DecodeMismatches s) ∧
    (¬ Letter v → Answers .chunkDecode s .ck 0x0A i v.toNat (fun t => t.ck = none)) := by
  obtain ⟨ty', flipped, layout⟩ := exists_flippedType good hi hs
  have at_i : (flipBit ty.toList i k)[i]? = some v := by
    rw [← hv, ← flipped, layout, List.append_assoc, List.getElem?_append_right (by simp),
      List.getElem?_append_left (by simpa using hi)]
    simp
  constructor
  · intro letter
    refine decodeMismatches_of_record layout (goodRecord_length_field good).symm
      (flipped ▸ allLetters_flipBit good.letters at_i letter) ?_
    rw [be32_be32bytes, flipped, ← flipBit_append_left pay k hi]
    exact oneFlippedBitChangesTheCrc _ _ _ (by simp; omega) hk
  · intro noLetter
    exact chunkDecode_answers_nonAlphabetic layout
      (flipped ▸ firstNonLetter_flipBit good.letters at_i noLetter)

end

/-- Settles O42, by the field the bit is in. -/
theorem flippedTypePayloadOrChecksumBitIsCaught : Obligations.FlippedTypePayloadOrChecksumBitIsCaught := by
  intro s b len ty pay o k good hk ho hs
  constructor
  · intro afterType
    obtain ⟨i, rfl⟩ := Nat.exists_eq_add_of_le afterType
    by_cases inPayload : i < len
    · exact decodeMismatches_of_flippedPayload good inPayload hk hs
    · obtain ⟨j, rfl⟩ := Nat.exists_eq_add_of_le (Nat.le_of_not_lt inPayload)
      exact decodeMismatches_of_flippedChecksum good (by omega) hk hs
  · intro afterLength inType v hv
    obtain ⟨i, rfl⟩ := Nat.exists_eq_add_of_le afterLength
    rw [Nat.add_sub_cancel_left]
    exact chunkDecode_of_flippedType good (by omega) hk hs hv

end Sys2Proof.Machine
end

section
/-! The commands of the type-tag unit (41_typetag.md), each as the completion statement `Answers`: a command that
ended in one of the two commits has the frame of its destination, so its own work is which commit it takes. -/

namespace Sys2Proof.Machine

open Sys2Proof.Claims

/-! ### The completion statement of each commit -/

/-- The error commit makes its destination empty (60_exceptions.md R121, item 2). -/
theorem State.raise_emptyAt (s : State) (d : Dest) (e : Err) : (s.raise d e).emptyAt d := by
  cases d with
  | tag r => simp [State.emptyAt, State.raise, State.clear]
  | ck | obuf | res => rfl
  | nothing => trivial

section
variable {i : Instr} {s : State} {d : Dest}

theorem answers_of_ok {t : State} {P : State → Prop} (run : exec i s = .next t.ok) (written : Written d s t)
    (post : P t.ok) : Answers i s d 0x00 0 0 P :=
  ⟨t.ok, run, written.sameExcept_ok, rfl, rfl, rfl, post⟩

theorem answers_of_raise {e : Err} {status errd0 errd1 : Nat} (run : exec i s = .next (s.raise d e))
    (hstatus : statusWord e.code e.sub = BitVec.ofNat 32 status) (herrd0 : e.errd0 = BitVec.ofNat 32 errd0)
    (herrd1 : e.errd1 = BitVec.ofNat 32 errd1) : Answers i s d status errd0 errd1 (fun t => t.emptyAt d) :=
  ⟨s.raise d e, run, sameExcept_raise d s e, hstatus, herrd0, herrd1, s.raise_emptyAt d e⟩

theorem answers_nonAlphabetic {k : Nat} {b : Byte} (run : exec i s = .next (s.raise d (.nonAlphabetic k b))) :
    Answers i s d 0x0A k b.toNat (fun t => t.emptyAt d) :=
  answers_of_raise run (statusWord_nonAlphabetic k b) rfl (BitVec.ofNat_toNat 32 b).symm

theorem answers_wrongLength {m n : Nat} (run : exec i s = .next (s.raise d (.wrongLength m n))) :
    Answers i s d 0x12 m n (fun t => t.emptyAt d) :=
  answers_of_raise run (statusWord_wrongLength m n) rfl rfl

theorem noTag_errd1 (r : TagReg) : (Err.noTag r).errd1 = BitVec.ofNat 32 (noOf r) := by
  cases r <;> rfl

theorem answers_noTag {r : TagReg} (run : exec i s = .next (s.raise d (.noTag r))) :
    Answers i s d 0x05 0 (noOf r) (fun t => t.emptyAt d) :=
  answers_of_raise run (statusWord_noTag r) rfl (noTag_errd1 r)

end

/-! ### Empty source registers (41_typetag.md R92) -/

/-- `o` begins with the fetches of the tag registers `rs`, in this order, by a command with destination `d`. -/
inductive Fetches (d : Dest) (s : State) : List TagReg → Outcome → Prop
  | nil (o : Outcome) : Fetches d s [] o
  | cons {r : TagReg} {rs : List TagReg} {go : Bytes4 → Outcome} (rest : ∀ c, Fetches d s rs (go c)) :
    Fetches d s (r :: rs) (withTag d r s go)

theorem Fetches.of_empty {d : Dest} {s : State} {rs : List TagReg} {o : Outcome} {r : TagReg}
    (h : Fetches d s rs o) (first : rs.find? (fun q => (s.tag q).isNone) = some r) :
    o = .next (s.raise d (.noTag r)) := by
  induction h with
  | nil o => cases first
  | @cons q rs go _ ih =>
    obtain ⟨hq, hw⟩ | ⟨c, hq, hw⟩ := withTag_cases d q s go
    · obtain rfl : q = r := by simpa [hq] using first
      exact hw
    · exact hw.trans (ih c (by simpa [hq] using first))

/-- A command fetches its tag sources first, in the order R91 and R92 give. -/
theorem exec_fetches (i : Instr) (s : State) : Fetches (destOf i) s (tagSources i) (exec i s) := by
  cases i with
  | tagIsCritical | tagIsPublic | tagIsResValid | tagIsSafe | tagIsValid => exact .cons fun _ => .nil _
  | tagBytes | tagText | chunkNew => exact .cons fun _ => .nil _
  | tagEq => exact .cons fun _ => .cons fun _ => .nil _
  | tagFromBytes | tagFromText => exact .nil _
  | chunkDecode | chunkEncode | chunkText | chunkType | chunkPayload => exact .nil _

/-- Settles O31: the fetches that the command begins with end at the first empty register. -/
theorem firstEmptyTagOperandGivesNoObject : Obligations.FirstEmptyTagOperandGivesNoObject :=
  fun i s _ first => answers_noTag ((exec_fetches i s).of_empty first)

theorem answers_noObject_of_firstSource {i : Instr} {s : State} {ta : TagReg} {rest : List TagReg}
    (sources : tagSources i = ta :: rest) (empty : s.tag ta = none) :
    Answers i s (destOf i) 0x05 0 (noOf ta) (fun t => t.emptyAt (destOf i)) :=
  firstEmptyTagOperandGivesNoObject i s ta (by simp [sources, empty])

/-! ### Construction (41_typetag.md R81, R82) -/

section
variable {s : State} {td : TagReg}

theorem exec_tagFromBytes_of_letters {imm : Word} (letters : AllLetters (be32bytes imm).toList) :
    exec (.tagFromBytes td imm) s = .next (s.setTag td (some (be32bytes imm))).ok := by
  rw [exec, execTagFromBytes, firstNonAlpha_eq_none_iff_allLetters.mpr letters]

theorem exec_tagFromBytes_of_nonLetter {imm : Word} {k : Nat} {b : Byte}
    (first : FirstNonLetter (be32bytes imm).toList k b) :
    exec (.tagFromBytes td imm) s = .next (s.raise (.tag td) (.nonAlphabetic k b)) := by
  rw [exec, execTagFromBytes, firstNonAlpha_eq_some_iff_firstNonLetter.mpr first]

theorem exec_tagFromText_of_nonLetter {k : Nat} {b : Byte} (first : FirstNonLetter s.ibuf k b) :
    exec (.tagFromText td) s = .next (s.raise (.tag td) (.nonAlphabetic k b)) := by
  rw [exec, execTagFromText, firstNonAlpha_eq_some_iff_firstNonLetter.mpr first]

theorem exec_tagFromText_of_length (letters : AllLetters s.ibuf) (length : s.ibuf.length ≠ 4) :
    exec (.tagFromText td) s = .next (s.raise (.tag td) (.wrongLength 4 s.ibuf.length)) := by
  rw [exec, execTagFromText, firstNonAlpha_eq_none_iff_allLetters.mpr letters]
  simp only [bytes4_eq_none.mpr length]

end

theorem wellFormed_of_allLetters {c : Bytes4} (letters : AllLetters c.toList) : Bytes4.wellFormed c = true :=
  (wellFormed_iff_scan c).mpr (firstNonAlpha_eq_none_iff_allLetters.mpr letters)

/-- Settles O25: the scan of the four bytes decides which commit. -/
theorem tagFromBytesConstructsOrRejects : Obligations.TagFromBytesConstructsOrRejects := by
  intro td imm s
  rw [be32Bytes_toNat]
  exact ⟨fun letters => answers_of_ok (exec_tagFromBytes_of_letters letters) ⟨_, rfl⟩ (by simp),
    fun _ _ first => answers_nonAlphabetic (exec_tagFromBytes_of_nonLetter first)⟩

/-- Settles O26: the scan of the whole text decides first, then its length. -/
theorem tagFromTextChecksLettersThenLength : Obligations.TagFromTextChecksLettersThenLength := by
  intro td s
  refine ⟨fun _ _ first => answers_nonAlphabetic (exec_tagFromText_of_nonLetter first),
    fun letters length => answers_wrongLength (exec_tagFromText_of_length letters length), ?_⟩
  intro c letters code
  have wf : Bytes4.wellFormed c = true := wellFormed_of_allLetters (code ▸ letters)
  exact answers_of_ok (exec_tagFromText_of_code td code wf) ⟨c, rfl⟩ (by simp)

/-! ### Queries (41_typetag.md R84 to R88, R91) -/

theorem isUpper_eq_decide (b : Byte) : isUpper b = decide (Upper b) := by
  rw [Bool.eq_iff_iff, isUpper_iff, decide_eq_true_iff]

theorem isLower_eq_decide (b : Byte) : isLower b = decide (Lower b) := by
  rw [Bool.eq_iff_iff, isLower_iff, decide_eq_true_iff]

/-- Settles O27: `queryTag_answers` at each property; an empty register is the query's first source. -/
theorem propertyQueriesAnswerTheCaseOfOneByte : Obligations.PropertyQueriesAnswerTheCaseOfOneByte := by
  intro ta s
  constructor
  · intro c hc
    exact ⟨queryTag_answers rfl rfl hc (isUpper_eq_decide c.b0),
      queryTag_answers rfl rfl hc (isUpper_eq_decide c.b1),
      queryTag_answers rfl rfl hc (isUpper_eq_decide c.b2),
      queryTag_answers rfl rfl hc (isLower_eq_decide c.b3),
      queryTag_answers rfl rfl hc (isUpper_eq_decide c.b2)⟩
  · intro empty
    refine ⟨?_, ?_, ?_, ?_, ?_⟩ <;> exact answers_noObject_of_firstSource rfl empty

theorem code_eq_iff (a b : Bytes4) : a = b ↔ a.b0 = b.b0 ∧ a.b1 = b.b1 ∧ a.b2 = b.b2 ∧ a.b3 = b.b3 := by
  cases a
  cases b
  simp only [Bytes4.mk.injEq]

theorem exec_tagEq_of_some {s : State} {ta tb : TagReg} {a b : Bytes4} (ha : s.tag ta = some a)
    (hb : s.tag tb = some b) : exec (.tagEq ta tb) s = .next (s.setRes (decide (a = b))).ok :=
  (withTag_some _ ha).trans (withTag_some _ hb)

/-- Settles O30: two codes are equal iff their four bytes are; an empty operand by O31. -/
theorem tagEqComparesTheBytes : Obligations.TagEqComparesTheBytes := by
  intro ta tb s
  refine ⟨fun a b ha hb => answers_of_ok (exec_tagEq_of_some ha hb) ⟨_, rfl⟩ ?_,
    fun empty => answers_noObject_of_firstSource rfl empty,
    fun a ha hb => firstEmptyTagOperandGivesNoObject (.tagEq ta tb) s tb (by simp [tagSources, ha, hb])⟩
  simp [bit_eq_ofBool, code_eq_iff]

/-! ### The code handed out (41_typetag.md R89, R90) -/

theorem copyTagOut_answers {i : Instr} {ta : TagReg} {s : State} {c : Bytes4} (hi : exec i s = copyTagOut ta s)
    (hc : s.tag ta = some c) : Answers i s .obuf 0x00 0 0 (fun t => t.obuf = [c.b0, c.b1, c.b2, c.b3]) :=
  answers_of_ok (hi.trans (withTag_some _ hc)) ⟨c.toList, rfl⟩ rfl

/-- Settles O29: both commands are `copyTagOut`; an empty register is their first source. -/
theorem tagBytesAndTextCopyTheCode : Obligations.TagBytesAndTextCopyTheCode := fun _ _ =>
  ⟨fun _ hc => ⟨copyTagOut_answers rfl hc, copyTagOut_answers rfl hc⟩,
    fun empty => ⟨answers_noObject_of_firstSource rfl empty, answers_noObject_of_firstSource rfl empty⟩⟩

end Sys2Proof.Machine
end

section
/-! The commands that read CK or a tag and copy (42_chunk.md R100, R102, R104, R106, R107), each as the completion
statement `Answers`; the fetch of CK said once. -/

namespace Sys2Proof.Machine

open Sys2Proof.Claims

/-! ### The completion statement of the other commits -/

section
variable {i : Instr} {s : State} {d : Dest}

theorem answers_truncated {m n : Nat} (run : exec i s = .next (s.raise d (.truncated m n))) :
    Answers i s d 0x01 m n (fun t => t.emptyAt d) :=
  answers_of_raise run (statusWord_truncated m n) rfl rfl

theorem answers_checksumMismatch {computed stored : Word}
    (run : exec i s = .next (s.raise d (.checksumMismatch computed stored))) :
    Answers i s d 0x03 computed.toNat stored.toNat (fun t => t.emptyAt d) :=
  answers_of_raise run (statusWord_checksumMismatch computed stored) (BitVec.ofNat_toNat 32 computed).symm
    (BitVec.ofNat_toNat 32 stored).symm

theorem answers_nonTextPayload (run : exec i s = .next (s.raise d .nonTextPayload)) :
    Answers i s d 0x04 0 0 (fun t => t.emptyAt d) :=
  answers_of_raise run statusWord_nonTextPayload rfl rfl

variable {go : Chunk → Outcome} (fetch : exec i s = withChunk d s go)
include fetch

/-- A command that reads an empty CK ends with `NoObject(1, 0)` (60_exceptions.md R128). -/
theorem answers_noChunk (empty : s.ck = none) : Answers i s d 0x05 1 0 (fun t => t.emptyAt d) :=
  answers_of_raise (fetch.trans (withChunk_none go empty)) statusWord_noChunk rfl rfl

theorem answers_of_chunk {c : Chunk} {t : State} {P : State → Prop} (hc : s.ck = some c)
    (run : go c = .next t.ok) (written : Written d s t) (post : P t.ok) : Answers i s d 0x00 0 0 P :=
  answers_of_ok (fetch.trans ((withChunk_some go hc).trans run)) written post

end

/-- Settles O33: CHUNK.NEW fetches its tag first; the length of an IBUF within PMAX fits 32 bits. -/
theorem chunkNewFramesTagAndIbuf : Obligations.ChunkNewFramesTagAndIbuf := by
  intro ta s
  refine ⟨fun ty hty => answers_of_ok (exec_chunkNew_of_some hty) ⟨_, rfl⟩ ⟨rfl, fun fits => ?_⟩,
    answers_noObject_of_firstSource rfl⟩
  exact countWord_toNat (Nat.lt_of_le_of_lt fits pmax_lt)

/-- Settles O35: OBUF becomes the record of the chunk. -/
theorem chunkEncodeEmitsTheRecord : Obligations.ChunkEncodeEmitsTheRecord := by
  intro s
  simp only [be32Bytes_toNat]
  exact ⟨fun _ hc => answers_of_chunk rfl hc rfl ⟨_, rfl⟩ rfl, answers_noChunk rfl⟩

/-- Settles O37: `utf8Valid` of the payload decides which commit. -/
theorem chunkTextCopiesValidText : Obligations.ChunkTextCopiesValidText := by
  intro s
  refine ⟨fun c hc valid => answers_of_chunk rfl hc (if_pos valid) ⟨_, rfl⟩ rfl, fun c hc invalid => ?_,
    answers_noChunk rfl⟩
  exact answers_nonTextPayload ((withChunk_some _ hc).trans (if_neg (by simp [invalid])))

/-- Settles O39: both commands hand out one field of the chunk. -/
theorem chunkTypeAndPayloadAreHandedOut : Obligations.ChunkTypeAndPayloadAreHandedOut := by
  intro s
  refine ⟨fun c td hc => answers_of_chunk rfl hc rfl ⟨_, rfl⟩ (by simp), fun td => answers_noChunk rfl,
    fun c hc => answers_of_chunk rfl hc rfl ⟨_, rfl⟩ rfl, answers_noChunk rfl⟩

end Sys2Proof.Machine
end

section
/-! The UTF-8 scan (42_chunk.md R105, log entry 3): the table's rows against the nine shapes, and the scan cut into
the sequences it begins. -/

namespace Sys2Proof.Machine

open Sys2Proof.Claims

theorem inRange_iff (r : ByteRange) (b : Byte) :
    inRange r b = true ↔ r.lo.toNat ≤ b.toNat ∧ b.toNat ≤ r.hi.toNat := by
  simp [inRange, BitVec.le_def]

/-- Byte by byte, the bytes of `q` lie in the ranges of `rs`, and they are as many. -/
def InRanges (rs : List ByteRange) (q : List Byte) : Prop := List.Forall₂ (fun r b => inRange r b = true) rs q

@[simp] theorem inRanges_nil_iff {q : List Byte} : InRanges [] q ↔ q = [] := List.forall₂_nil_left_iff

@[simp] theorem not_inRanges_cons_nil {r : ByteRange} {rs : List ByteRange} : ¬ InRanges (r :: rs) [] := nofun

@[simp] theorem inRanges_cons_iff {r : ByteRange} {rs : List ByteRange} {b : Byte} {q : List Byte} :
    InRanges (r :: rs) (b :: q) ↔ (r.lo.toNat ≤ b.toNat ∧ b.toNat ≤ r.hi.toNat) ∧ InRanges rs q := by
  rw [InRanges, List.forall₂_cons, inRange_iff, InRanges]

/-- The nine shapes are the nine rows of the table. -/
theorem utf8Shape_iff {q : List Byte} : Utf8Shape q ↔ ∃ row ∈ utf8Rows, InRanges (row.first :: row.rest) q := by
  match q with
  | [] | [a] | [a, b] => simp [Utf8Shape, utf8Rows]
  | [a, b, c] | [a, b, c, d] => simp [Utf8Shape, utf8Rows, ← Nat.le_antisymm_iff, eq_comm (a := a.toNat)]
  | _ :: _ :: _ :: _ :: _ :: _ => simp [Utf8Shape, utf8Rows]

/-- The ranges of the first byte rise from row to row and do not meet. -/
theorem utf8Rows_rising : utf8Rows.Pairwise (fun r r' => r.first.hi.toNat < r'.first.lo.toNat) := by decide

/-- A byte picks the one row whose "first" range holds it. -/
theorem utf8Rows_find_eq_some {row : Utf8Row} {b : Byte} :
    utf8Rows.find? (fun row => inRange row.first b) = some row ↔ row ∈ utf8Rows ∧ inRange row.first b = true := by
  constructor
  · intro found
    exact ⟨List.mem_of_find?_eq_some found, by simpa using List.find?_some found⟩
  · rintro ⟨mem, first⟩
    obtain ⟨before, after, split⟩ := List.append_of_mem mem
    refine List.find?_eq_some_iff_append.mpr ⟨first, before, after, split, fun row' mem' => ?_⟩
    have apart : row'.first.hi.toNat < row.first.lo.toNat :=
      (List.pairwise_append.mp (split ▸ utf8Rows_rising)).2.2 row' mem' row List.mem_cons_self
    rw [inRange_iff] at first
    rw [Bool.not_eq_true', Bool.eq_false_iff, ne_eq, inRange_iff]
    omega

theorem utf8Scan_begin {b : Byte} {p : List Byte} :
    utf8Scan [] (b :: p) = true ↔
      ∃ row ∈ utf8Rows, inRange row.first b = true ∧ utf8Scan row.rest p = true := by
  simp only [← and_assoc, ← utf8Rows_find_eq_some, utf8Scan]
  cases utf8Rows.find? (fun row => inRange row.first b) <;> simp

/-- `p` is the bytes still due, by their ranges, and then sequences of the nine shapes. -/
def Utf8Tail (due : List ByteRange) (p : List Byte) : Prop :=
  ∃ (q : List Byte) (parts : List (List Byte)),
    InRanges due q ∧ (∀ part ∈ parts, Utf8Shape part) ∧ q ++ parts.flatten = p

/-- The bytes due are scanned off, and then the next sequence begins. -/
theorem utf8Scan_append {due : List ByteRange} {q : List Byte} (h : InRanges due q) (p : List Byte) :
    utf8Scan due (q ++ p) = utf8Scan [] p := by
  induction h with
  | nil => rfl
  | cons hb _ ih => rw [List.cons_append, utf8Scan, hb, ih, Bool.true_and]

theorem utf8Scan_shape_append {q p : List Byte} (shape : Utf8Shape q) (scan : utf8Scan [] p = true) :
    utf8Scan [] (q ++ p) = true := by
  obtain ⟨row, mem, _ | ⟨first, due⟩⟩ := utf8Shape_iff.mp shape
  exact utf8Scan_begin.mpr ⟨row, mem, first, (utf8Scan_append due p).trans scan⟩

/-- What the scan accepts is cut along its own steps: a byte that begins a sequence begins a new part. -/
theorem utf8Tail_of_scan {due : List ByteRange} {p : List Byte} (h : utf8Scan due p = true) : Utf8Tail due p := by
  induction p generalizing due with
  | nil =>
    cases due with
    | nil => exact ⟨[], [], .nil, nofun, rfl⟩
    | cons => cases h
  | cons b p ih =>
    cases due with
    | nil =>
      obtain ⟨row, mem, first, scan⟩ := utf8Scan_begin.mp h
      obtain ⟨q, parts, due, shapes, rfl⟩ := ih scan
      have shape : Utf8Shape (b :: q) := utf8Shape_iff.mpr ⟨row, mem, .cons first due⟩
      exact ⟨[], (b :: q) :: parts, .nil, List.forall_mem_cons.mpr ⟨shape, shapes⟩, rfl⟩
    | cons r due =>
      obtain ⟨hb, scan⟩ := Bool.and_eq_true_iff.mp h
      obtain ⟨q, parts, due, shapes, rfl⟩ := ih scan
      exact ⟨b :: q, parts, .cons hb due, shapes, rfl⟩

/-- Settles O38: the scan cuts its input into parts, and scans off one part after the other. -/
theorem utf8ScanAcceptsExactlyTheNineShapes : Obligations.Utf8ScanAcceptsExactlyTheNineShapes := by
  intro p
  constructor
  · intro valid
    obtain ⟨q, parts, due, shapes, rfl⟩ := utf8Tail_of_scan valid
    exact ⟨parts, shapes, by rw [inRanges_nil_iff.mp due, List.nil_append]⟩
  · rintro ⟨parts, shapes, rfl⟩
    induction parts with
    | nil => rfl
    | cons q parts ih =>
      obtain ⟨shape, shapes⟩ := List.forall_mem_cons.mp shapes
      exact utf8Scan_shape_append shape (ih shapes)

end Sys2Proof.Machine
end

section
/-! CHUNK.DECODE clause by clause in wire order (42_chunk.md R101), and what follows for a record that decodes: it is
encoded again byte for byte (R110), and one flipped bit of its length field moves the window (R111). -/

namespace Sys2Proof.Machine

open Sys2Proof.Claims

/-! ### Big-endian numbers (20_memory.md R31) -/

theorem be32_toNat (c : Bytes4) : (be32 c).toNat = be32Nat c := by
  have bytes (n : Nat) (b : Byte) (w : BitVec n) : (b ++ w).toNat = b.toNat * 2 ^ n + w.toNat := by
    rw [BitVec.toNat_append, ← Nat.shiftLeft_add_eq_or_of_lt w.isLt, Nat.shiftLeft_eq]
  simp only [be32, be32Nat, bytes, Nat.add_assoc, Nat.reduceAdd]

theorem ofNat_be32Nat (c : Bytes4) : BitVec.ofNat 32 (be32Nat c) = be32 c := by
  rw [← be32_toNat, BitVec.ofNat_toNat, BitVec.setWidth_eq]

/-! ### The parse, clause by clause -/

theorem exec_chunkDecode_of_ok {s : State} {c : Chunk} (h : parseRecord s.ibuf = .ok c) :
    exec .chunkDecode s = .next (s.setChunk c).ok := by
  rw [exec, execChunkDecode, h]

theorem parseRecord_of_noLengthField {b : Memory} (short : b.length < 4) :
    parseRecord b = .error (.truncated 4 b.length) := by
  rw [parseRecord, field4_eq_none.mpr (by omega)]

theorem parseRecord_of_noTypeField {b : Memory} (long : 4 ≤ b.length) (short : b.length < 8) :
    parseRecord b = .error (.truncated 4 (b.length - 4)) := by
  obtain ⟨len, hlen⟩ := Option.ne_none_iff_exists'.mp (mt field4_eq_none.mp (by omega : ¬ b.length - 0 < 4))
  rw [parseRecord, hlen]
  dsimp only
  rw [field4_eq_none.mpr (by omega)]

section
variable {s : State} {len ty : Bytes4} {rest : List Byte}
  (layout : s.ibuf = len.toList ++ ty.toList ++ rest) (letters : AllLetters ty.toList)
include layout letters

theorem chunkDecode_answers_payloadTruncated (short : rest.length < be32Nat len) :
    Answers .chunkDecode s .ck 0x01 (be32Nat len) rest.length (fun t => t.ck = none) := by
  apply answers_truncated
  apply exec_chunkDecode_of_error
  rw [← be32_toNat] at short ⊢
  rw [layout, parseRecord_fields, firstNonAlpha_eq_none_iff_allLetters.mpr letters]
  exact if_pos short

theorem parseRecord_of_payload (long : be32Nat len ≤ rest.length) :
    parseRecord s.ibuf = parseChecksum s.ibuf (be32 len) ty := by
  rw [layout, parseRecord_fields, firstNonAlpha_eq_none_iff_allLetters.mpr letters]
  exact if_neg (by rw [be32_toNat]; omega)

theorem chunkDecode_answers_checksumTruncated (long : be32Nat len ≤ rest.length)
    (short : rest.length < be32Nat len + 4) :
    Answers .chunkDecode s .ck 0x01 4 (rest.length - be32Nat len) (fun t => t.ck = none) := by
  apply answers_truncated
  apply exec_chunkDecode_of_error
  rw [parseRecord_of_payload layout letters long, layout]
  rw [← be32_toNat] at long short ⊢
  exact parseChecksum_short _ _ _ _ long short

variable {pay tail : List Byte} {stored : Bytes4} (record : rest = pay ++ stored.toList ++ tail)
  (length : pay.length = be32Nat len)
include record length

theorem parseRecord_of_record :
    parseRecord s.ibuf = if crc32 (ty.toList ++ pay) = be32 stored then .ok ⟨be32 len, ty, pay, be32 stored⟩
      else .error (.checksumMismatch (crc32 (ty.toList ++ pay)) (be32 stored)) := by
  have long : be32Nat len ≤ rest.length := by simp [record, length]
  rw [parseRecord_of_payload layout letters long, layout, record]
  exact parseChecksum_full _ _ _ _ _ _ (length.trans (be32_toNat len).symm)

theorem chunkDecode_answers_checksumMismatch (differ : (crc32 (ty.toList ++ pay)).toNat ≠ be32Nat stored) :
    Answers .chunkDecode s .ck 0x03 (crc32 (ty.toList ++ pay)).toNat (be32Nat stored) (fun t => t.ck = none) := by
  rw [← be32_toNat] at differ ⊢
  apply answers_checksumMismatch
  apply exec_chunkDecode_of_error
  rw [parseRecord_of_record layout letters record length, if_neg fun same => differ (congrArg _ same)]

theorem chunkDecode_answers_chunk (same : (crc32 (ty.toList ++ pay)).toNat = be32Nat stored) :
    Answers .chunkDecode s .ck 0x00 0 0 (fun t => t.ck = some
      { length := BitVec.ofNat 32 (be32Nat len), type := ty, payload := pay,
        crc := BitVec.ofNat 32 (be32Nat stored) }) := by
  rw [← be32_toNat] at same
  have parse := parseRecord_of_record layout letters record length
  rw [if_pos (BitVec.eq_of_toNat_eq same)] at parse
  rw [ofNat_be32Nat, ofNat_be32Nat]
  exact answers_of_ok (exec_chunkDecode_of_ok parse) ⟨_, rfl⟩ rfl

end

/-- Settles O34, by the clauses in wire order. -/
theorem chunkDecodeParsesTheRecord : Obligations.ChunkDecodeParsesTheRecord := by
  intro s
  refine ⟨fun short => answers_truncated (exec_chunkDecode_of_error (parseRecord_of_noLengthField short)),
    fun long short => answers_truncated (exec_chunkDecode_of_error (parseRecord_of_noTypeField long short)), ?_⟩
  intro len ty rest layout
  refine ⟨fun _ _ first => chunkDecode_answers_nonAlphabetic layout first,
    chunkDecode_answers_payloadTruncated layout, chunkDecode_answers_checksumTruncated layout, ?_⟩
  intro pay stored tail letters record length
  exact ⟨chunkDecode_answers_checksumMismatch layout letters record length,
    chunkDecode_answers_chunk layout letters record length⟩

/-! ### The reverse round trip -/

/-- CHUNK.DECODE succeeds only by a parse that does: an error commit's STATUS is not 0. -/
theorem parseRecord_of_exec_ok {s t : State} (run : exec .chunkDecode s = .next t) (ok : t.status = 0#32) :
    ∃ c, parseRecord s.ibuf = .ok c ∧ t = (s.setChunk c).ok := by
  cases parse : parseRecord s.ibuf with
  | error e =>
    obtain rfl := Host.Outcome.next.inj (run.symm.trans (exec_chunkDecode_of_error parse))
    exact absurd ok (statusWord_ne_zero e)
  | ok c => exact ⟨c, rfl, Host.Outcome.next.inj (run.symm.trans (exec_chunkDecode_of_ok parse))⟩

/-- Settles O41: a parse that succeeds read the record of its chunk, and CHUNK.ENCODE emits that record. -/
theorem decodeThenEncodeReproducesTheRecord : Obligations.DecodeThenEncodeReproducesTheRecord := by
  intro s t run ok
  obtain ⟨c, parse, rfl⟩ := parseRecord_of_exec_ok run ok
  obtain ⟨tail, layout, length, -, -⟩ := parseRecord_ok parse
  refine ⟨c, _, rfl, exec_chunkEncode_of_some rfl, rfl, ?_⟩
  rw [State.ok_obuf, State.setObuf_obuf, layout, length, ← c.record_length, List.take_left]

/-! ### A flipped bit of the length field -/

/-- Inverting bit `j` adds `2 ^ j` or takes it off. -/
theorem xor_two_pow (a j : Nat) : a ^^^ 2 ^ j = if a.testBit j then a - 2 ^ j else a + 2 ^ j := by
  induction j generalizing a with
  | zero =>
    rcases Nat.even_or_odd a with h | h
    · simp [Nat.xor_one_of_even h, Nat.even_iff.mp h]
    · simp [Nat.xor_one_of_odd h, Nat.odd_iff.mp h]
  | succ j ih =>
    have half : (a ^^^ 2 ^ (j + 1)) / 2 = a / 2 ^^^ 2 ^ j := by simp [Nat.xor_div_two, Nat.pow_succ]
    have low : (a ^^^ 2 ^ (j + 1)) % 2 = a % 2 := by simp [Nat.xor_mod_two_eq, Nat.pow_succ]
    rw [ih] at half
    rw [Nat.testBit_succ]
    split_ifs at half ⊢ with bit
    · have := Nat.ge_two_pow_of_testBit bit
      omega
    · omega

theorem flippedByte_getLsbD (b : Byte) {k : Nat} (hk : k < 8) (i : Nat) :
    (b ^^^ (1#8 <<< k)).getLsbD i = (b.getLsbD i ^^ decide (k = i)) := by
  rw [BitVec.getLsbD_xor, ← BitVec.twoPow_eq, BitVec.getLsbD_twoPow, decide_eq_true hk, Bool.true_and]

/-- A flipped bit of four bytes is a flipped bit of their word: byte 0 is the most significant one. -/
theorem be32_of_flipped {c c' : Bytes4} {o k : Nat} (ho : o < 4) (hk : k < 8)
    (flipped : c'.toList = flipBit c.toList o k) : be32 c' = be32 c ^^^ BitVec.twoPow 32 (8 * (3 - o) + k) := by
  obtain ⟨b0, b1, b2, b3⟩ := c
  obtain ⟨b0', b1', b2', b3'⟩ := c'
  apply BitVec.eq_of_getLsbD_eq
  intro i hi
  rw [BitVec.getLsbD_xor, BitVec.getLsbD_twoPow, decide_eq_true (by omega : 8 * (3 - o) + k < 32), Bool.true_and]
  interval_cases o
  all_goals
    obtain ⟨rfl, rfl, rfl, rfl⟩ : _ ∧ _ ∧ _ ∧ _ := by simpa [flipBit, Bytes4.toList] using flipped
    simp only [be32_getLsbD, flippedByte_getLsbD _ hk]
    grind

section
variable {s : State} {b pay : List Byte} {len : Nat} {ty : Bytes4} (good : GoodRecord b len ty pay)
include good

/-- The record with a flipped bit in its length field: only that field differs. -/
theorem exists_flippedLength {o k : Nat} (ho : o < 4) (hk : k < 8) (hs : s.ibuf = flipBit b o k) :
    ∃ len' : Bytes4, be32Nat len' = len ^^^ 2 ^ (8 * (3 - o) + k) ∧
      s.ibuf = len'.toList ++ ty.toList ++ (pay ++ (be32bytes (crc32 (ty.toList ++ pay))).toList) := by
  obtain ⟨len', flipped⟩ := exists_flippedField (be32bytes (BitVec.ofNat 32 len)) o k
  refine ⟨len', ?_, ?_⟩
  · rw [← be32_toNat, be32_of_flipped ho hk flipped, BitVec.toNat_xor, goodRecord_length_field good, good.len_eq,
      BitVec.toNat_twoPow_of_lt (by omega)]
  · rw [hs, goodRecord_layout good, List.append_assoc, flipBit_append_left _ k ho, flipped, List.append_assoc]

theorem goodRecord_rest_length :
    (pay ++ (be32bytes (crc32 (ty.toList ++ pay))).toList).length = len + 4 := by
  rw [List.length_append, good.len_eq, Bytes4.toList_length]

end

/-- A payload and a checksum field cut out of a longer record: the payload is the longer one's beginning. -/
theorem exists_window {pay crc : List Byte} {n : Nat} (shorter : n ≤ pay.length)
    (fits : n + 4 ≤ (pay ++ crc).length) :
    ∃ (stored : Bytes4) (tail : List Byte), pay ++ crc = pay.take n ++ stored.toList ++ tail := by
  obtain ⟨window, stored, tail, split, length⟩ := exists_payload fits
  have cut : pay.take n = window := by
    rw [← List.take_append_of_le_length shorter, split, List.append_assoc, List.take_left' length]
  exact ⟨stored, tail, cut ▸ split⟩

/-- Settles O43: the flipped field is the length with `2 ^ j` added or taken off, and the fields are found by it. -/
theorem flippedLengthBitMovesTheWindow : Obligations.FlippedLengthBitMovesTheWindow := by
  intro s b len ty pay o k good hk ho hs
  obtain ⟨len', value, layout⟩ := exists_flippedLength good ho hk hs
  have total := goodRecord_rest_length good
  have positive : 0 < 2 ^ (8 * (3 - o) + k) := Nat.two_pow_pos _
  rw [xor_two_pow] at value
  constructor
  · intro bitClear
    rw [if_neg (by simp [bitClear])] at value
    constructor
    · intro small
      have cut := chunkDecode_answers_checksumTruncated layout good.letters (by omega) (by omega)
      rwa [total, value, Nat.add_sub_add_left] at cut
    · intro large
      have cut := chunkDecode_answers_payloadTruncated layout good.letters (by omega)
      rwa [total, value] at cut
  · intro bitSet
    rw [if_pos bitSet] at value
    rw [← value]
    have shorter : be32Nat len' ≤ pay.length := by rw [good.len_eq]; omega
    have length : (pay.take (be32Nat len')).length = be32Nat len' := List.length_take_of_le shorter
    obtain ⟨stored, tail, record⟩ :=
      exists_window (crc := (be32bytes (crc32 (ty.toList ++ pay))).toList) shorter (by omega)
    refine ⟨stored, ?_, chunkDecode_answers_chunk layout good.letters record length,
      chunkDecode_answers_checksumMismatch layout good.letters record length⟩
    have before : (len'.toList ++ ty.toList ++ pay.take (be32Nat len')).length = 8 + be32Nat len' := by
      rw [List.length_append, header_length, length]
    simpa only [layout, record, List.append_assoc] using
      slice_append (post := tail) before (Bytes4.toList_length stored)

end Sys2Proof.Machine
end

section
/-! The outcome of a command word (60_exceptions.md R120, R121, R122, R127): an illegal word writes the outcome
words alone, an error empties the destination, and each error comes only from the commands the table names. -/

namespace Sys2Proof.Machine

open Sys2Proof.Claims

/-! ### Illegal words -/

/-- The decoder is total: a word that meets no row of the map is rejected (30_encoding.md R59, R63). -/
theorem decode_of_no_row {w : CmdWord} (noRow : ∀ row ∈ opcodeMap, w &&& row.mask ≠ row.pattern) :
    ∃ e, decode w = .error e := by
  cases decoded : decode w with
  | error e => exact ⟨e, rfl⟩
  | ok i =>
    obtain ⟨row, mem, meets, -⟩ := (decoderIsTheOpcodeMap w i).mp decoded
    exact absurd meets (noRow row mem)

/-- An error commit without a destination is its three outcome words. -/
theorem State.raise_nothing (s : State) (e : Err) : s.raise .nothing e =
    { s with status := statusWord e.code e.sub, errd0 := e.errd0, errd1 := e.errd1 } := rfl

theorem illegalCommand_errd0 (w : CmdWord) :
    (Err.illegalCommand w).errd0 = BitVec.ofNat 32 (field w.toNat 63 32) := (ofNat_field w 63 32).symm

theorem illegalCommand_errd1 (w : CmdWord) :
    (Err.illegalCommand w).errd1 = BitVec.ofNat 32 (field w.toNat 31 0) := (ofNat_field w 31 0).symm

/-- Settles O6: the word does not decode, and IllegalCommand is raised without a destination. -/
theorem illegalWordWritesOnlyTheOutcome : Obligations.IllegalWordWritesOnlyTheOutcome := by
  intro w s noRow
  obtain ⟨e, illegal⟩ := decode_of_no_row noRow
  rw [runAction_cmd_of_illegal illegal, State.raise_nothing, statusWord_illegalCommand,
    illegalCommand_errd0, illegalCommand_errd1]

/-! ### Errors empty the destination -/

/-- Settles O20: STATUS is not 0 only after an error commit. -/
theorem errorsEmptyTheDestination : Obligations.ErrorsEmptyTheDestination := by
  intro i s
  obtain ⟨t, run⟩ := exec_answers i s
  refine ⟨t, run, fun failed => ?_, (exec_outcomeInv run).no_detail_after_ok⟩
  obtain ⟨e, rfl⟩ | ⟨u, -, rfl⟩ := exec_cases run
  · exact s.raise_emptyAt (destOf i) e
  · exact absurd u.ok_status failed

/-! ### Which command raises which error -/

/-- The rows of the table of 60_exceptions.md R120: the commands that raise each error. No command raises
IllegalCommand, so its row has none. -/
inductive RaisedBy : Instr → Err → Prop
  | truncated {expected actual : Nat} : RaisedBy .chunkDecode (.truncated expected actual)
  | immediateNoLetter {td : TagReg} {imm : Word} {k : Nat} {b : Byte} :
    RaisedBy (.tagFromBytes td imm) (.nonAlphabetic k b)
  | textNoLetter {td : TagReg} {k : Nat} {b : Byte} : RaisedBy (.tagFromText td) (.nonAlphabetic k b)
  | typeNoLetter {k : Nat} {b : Byte} : RaisedBy .chunkDecode (.nonAlphabetic k b)
  | wrongLength {td : TagReg} {expected actual : Nat} :
    RaisedBy (.tagFromText td) (.wrongLength expected actual)
  | checksumMismatch {computed stored : Word} : RaisedBy .chunkDecode (.checksumMismatch computed stored)
  | nonTextPayload : RaisedBy .chunkText .nonTextPayload
  | noTag {i : Instr} {r : TagReg} (source : hasSource i) : RaisedBy i (.noTag r)
  | noChunk {i : Instr} (source : hasSource i) : RaisedBy i .noChunk

/-- `o` is a success commit, or the commit of an error the table names for the command `i`. -/
inductive EndsAsNamed (i : Instr) : Outcome → Prop
  | ok (t : State) : EndsAsNamed i (.next t.ok)
  | raise {e : Err} (named : RaisedBy i e) (s : State) (d : Dest) : EndsAsNamed i (.next (s.raise d e))

theorem EndsAsNamed.withTag {i : Instr} (source : hasSource i) {d : Dest} {r : TagReg} {s : State}
    {go : Bytes4 → Outcome} (h : ∀ c, EndsAsNamed i (go c)) : EndsAsNamed i (withTag d r s go) := by
  obtain ⟨-, hw⟩ | ⟨c, -, hw⟩ := withTag_cases d r s go
  · exact hw ▸ .raise (.noTag source) s d
  · exact hw ▸ h c

theorem EndsAsNamed.withChunk {i : Instr} (source : hasSource i) {d : Dest} {s : State}
    {go : Chunk → Outcome} (h : ∀ c, EndsAsNamed i (go c)) : EndsAsNamed i (withChunk d s go) := by
  obtain ⟨-, hw⟩ | ⟨c, -, hw⟩ := withChunk_cases d s go
  · exact hw ▸ .raise (.noChunk source) s d
  · exact hw ▸ h c

theorem queryTag_endsAsNamed {i : Instr} (source : hasSource i) (property : Bytes4 → Bool) (ta : TagReg)
    (s : State) : EndsAsNamed i (queryTag property ta s) := .withTag source fun _ => .ok _

theorem copyTagOut_endsAsNamed {i : Instr} (source : hasSource i) (ta : TagReg) (s : State) :
    EndsAsNamed i (copyTagOut ta s) := .withTag source fun _ => .ok _

theorem execTagFromBytes_endsAsNamed (td : TagReg) (imm : Word) (s : State) :
    EndsAsNamed (.tagFromBytes td imm) (execTagFromBytes td imm s) := by
  unfold execTagFromBytes
  split
  · exact .raise .immediateNoLetter s _
  · exact .ok _

theorem execTagFromText_endsAsNamed (td : TagReg) (s : State) :
    EndsAsNamed (.tagFromText td) (execTagFromText td s) := by
  unfold execTagFromText
  split
  · exact .raise .textNoLetter s _
  · split
    · exact .raise .wrongLength s _
    · exact .ok _

theorem parseChecksum_error_named {b : Memory} {len : Word} {ty : Bytes4} {e : Err}
    (h : parseChecksum b len ty = .error e) : RaisedBy .chunkDecode e := by
  unfold parseChecksum at h
  split at h
  · cases h
    exact .truncated
  · dsimp only at h
    split at h
    · cases h
    · cases h
      exact .checksumMismatch

/-- The parse rejects a buffer as truncated, for a type that is no letters, or for its checksum (42_chunk.md
R101). -/
theorem parseRecord_error_named {b : Memory} {e : Err} (h : parseRecord b = .error e) :
    RaisedBy .chunkDecode e := by
  by_cases h8 : 8 ≤ b.length
  · obtain ⟨len, ty, rest, rfl⟩ := exists_fields h8
    rw [parseRecord_fields] at h
    split at h
    · cases h
      exact .typeNoLetter
    · split at h
      · cases h
        exact .truncated
      · exact parseChecksum_error_named h
  · by_cases h4 : 4 ≤ b.length
    · rw [parseRecord_of_noTypeField h4 (Nat.lt_of_not_le h8)] at h
      cases h
      exact .truncated
    · rw [parseRecord_of_noLengthField (Nat.lt_of_not_le h4)] at h
      cases h
      exact .truncated

theorem execChunkDecode_endsAsNamed (s : State) : EndsAsNamed .chunkDecode (execChunkDecode s) := by
  unfold execChunkDecode
  split
  · rename_i rejected
    exact .raise (parseRecord_error_named rejected) s _
  · exact .ok _

theorem execChunkText_endsAsNamed (s : State) : EndsAsNamed .chunkText (execChunkText s) :=
  .withChunk (by trivial) fun _ => by
    split
    · exact .ok _
    · exact .raise .nonTextPayload s _

/-- Every command ends well or in an error the table names for it. -/
theorem exec_endsAsNamed (i : Instr) (s : State) : EndsAsNamed i (exec i s) := by
  cases i with
  | tagFromBytes td imm => exact execTagFromBytes_endsAsNamed td imm s
  | tagFromText td => exact execTagFromText_endsAsNamed td s
  | tagIsCritical ta | tagIsPublic ta | tagIsResValid ta | tagIsSafe ta | tagIsValid ta =>
    exact queryTag_endsAsNamed (by trivial) _ ta s
  | tagBytes ta | tagText ta => exact copyTagOut_endsAsNamed (by trivial) ta s
  | tagEq ta tb => exact .withTag (by trivial) fun _ => .withTag (by trivial) fun _ => .ok _
  | chunkNew ta => exact .withTag (by trivial) fun _ => .ok _
  | chunkDecode => exact execChunkDecode_endsAsNamed s
  | chunkText => exact execChunkText_endsAsNamed s
  | chunkEncode | chunkType | chunkPayload => exact .withChunk (by trivial) fun _ => .ok _

theorem exec_named_cases {i : Instr} {s t : State} (run : exec i s = .next t) :
    t.status = 0#32 ∨ ∃ e, RaisedBy i e ∧ t.status = statusWord e.code e.sub := by
  cases run ▸ exec_endsAsNamed i s with
  | ok u => exact .inl u.ok_status
  | raise named u d => exact .inr ⟨_, named, u.raise_status d _⟩

/-- Settles O21: `RaisedBy` is the table, each error with its STATUS word. -/
theorem outcomesComeOnlyFromTheirCommands : Obligations.OutcomesComeOnlyFromTheirCommands := by
  intro i s t run
  obtain ok | ⟨e, named, status⟩ := exec_named_cases run
  · exact .inl ok
  · right
    cases named with
    | truncated => exact .inl ⟨status.trans (statusWord_truncated ..), rfl⟩
    | immediateNoLetter => exact .inr (.inl ⟨status.trans (statusWord_nonAlphabetic ..), .inl ⟨_, _, rfl⟩⟩)
    | textNoLetter => exact .inr (.inl ⟨status.trans (statusWord_nonAlphabetic ..), .inr (.inl ⟨_, rfl⟩)⟩)
    | typeNoLetter => exact .inr (.inl ⟨status.trans (statusWord_nonAlphabetic ..), .inr (.inr rfl)⟩)
    | wrongLength => exact .inr (.inr (.inl ⟨status.trans (statusWord_wrongLength ..), _, rfl⟩))
    | checksumMismatch =>
      exact .inr (.inr (.inr (.inl ⟨status.trans (statusWord_checksumMismatch ..), rfl⟩)))
    | nonTextPayload => exact .inr (.inr (.inr (.inr (.inl ⟨status.trans statusWord_nonTextPayload, rfl⟩))))
    | noTag source => exact .inr (.inr (.inr (.inr (.inr ⟨status.trans (statusWord_noTag _), source⟩))))
    | noChunk source => exact .inr (.inr (.inr (.inr (.inr ⟨status.trans statusWord_noChunk, source⟩))))

end Sys2Proof.Machine
end
